-- ==== Sys2Proof/Word.lean ====
section
/-! DEFINITION. The two word types of the core (spec 00_scope.md R6, R10). -/

namespace Sys2Proof

/-- A register, a program byte, an opcode or an operand: 8 bits, unsigned (R6). -/
abbrev Byte := BitVec 8

/-- A value of `program_counter`, an offset into the program buffer: 16 bits, unsigned (R6, R18).
Its addition is the spec's addition modulo 2^16 (R10). -/
abbrev Word := BitVec 16

end Sys2Proof
end

