-- ==== Sys2Proof/Config.lean ====
section
/-! DEFINITION. What is fixed for the machine, and the free values: the values the spec leaves unspecified. -/

namespace Sys2Proof

/-- The offset at which every run begins (20_memory.md R40, 70_reset_and_hazards.md R105). -/
def Config.entryPoint : Word := 0x0000#16

/-- What an offset below `L` that the cell list does not mention reads as: a zero byte of the program is kept
unlisted, so that each program has one cell list. DESIGN CHOICE (log entry 6), a choice of representation only:
the latch gives every offset below `L` its byte. -/
def Config.unlistedByte : Byte := 0x00#8

/-- The bytes A, X and `status` hold after a fault: "no further meaningful state is guaranteed"
(10_state.md R30, U1 of 93_implementation_defined.md). A free value: nothing is known of it. Log entry 4. -/
opaque Config.freeByte : Nat → Byte

/-- The value `program_counter` holds after a fault (R30, U1). A free value: nothing is known of it. Log entry 4. -/
opaque Config.freeWord : Nat → Word

end Sys2Proof
end

