-- ==== Sys2Proof/Machine/State.lean ====
section
/-! DEFINITION. The state of the core, the two fatal conditions, the reasons a step or a host move is refused, and the
state after reset (10_state.md). -/

namespace Sys2Proof.Machine

/-- The two registers of the register file (R16). -/
inductive Reg where
  /-- `register_a`, the accumulator (R14). -/
  | a
  /-- `register_x`, the index register (R15). -/
  | x
  deriving DecidableEq, Repr

/-- The state of the Execution Loop (R27, 40_execution_loop.md R63). -/
inductive Mode where
  | idle
  | running
  | halted
  | faulted
  deriving DecidableEq, Repr

/-- The two fatal conditions, with their records (60_exceptions.md R86). A step that raises one answers it as its
fault outcome (R87). -/
inductive Fault where
  /-- A program read at an offset at or past `L`; raised by the opcode fetch and by `LDA`'s operand fetch (R88).
  Stated by the spec, so neither safe nor unsafe but exact. For `LDA`'s operand the recorded offset is the spec's own
  choice (D13): UNSAFE if an implementation records another, log entry 10. -/
  | outOfBoundsFetch (offset : Word)
  /-- An opcode outside the four defined ones; raised by dispatch (R89). Stated by the spec: exact. -/
  | unimplementedOpcode (opcode : Byte)
  deriving DecidableEq, Repr

/-- Why a step or a host move is refused. A refused move changes nothing. -/
inductive Refusal where
  /-- An instruction without a meaning yet; raised by `exec` only. Safe. No arm of this model uses it. -/
  | notModelled (mnemonic : String)
  /-- A step asked for outside mode RUNNING; raised by `step`: a step "requires mode == RUNNING" (R65). Safe. Log
  entry 3. -/
  | notRunning
  /-- `interpret` called in mode FAULTED; raised by the host's `interpret` (R63, R91). Safe. -/
  | faultedUntilReset
  /-- `interpret` or a state-port access while RUNNING; raised by the host's moves (R28, U8). Safe. -/
  | hostDuringRun
  deriving DecidableEq, Repr

/-- The bytes of the program buffer by offset, as a list of cells in one canonical form (`Memory.wf`, Ops.lean): offsets
strictly rising, no cell holding `Config.unlistedByte`. Log entry 6. -/
abbrev Memory := List Host.Cell

/-- The CPU State as the host sees it through the state port (R13, R28). -/
structure CpuState where
  regA   : Byte
  regX   : Byte
  status : Byte
  pc     : Word
  deriving DecidableEq, Repr

/-- Everything the spec gives the machine: the CPU State (R13) and the control state (R27); `freeCount` is the model's
own. -/
structure State where
  /-- `register_a` (R14). -/
  regA      : Byte
  /-- `register_x` (R15). -/
  regX      : Byte
  /-- The status byte: bit 1 is Z, bit 7 is N, the other bits are reserved and preserved (R21). -/
  status    : Byte
  /-- `program_counter` (R18). -/
  pc        : Word
  /-- The state of the Execution Loop (R27). -/
  mode      : Mode
  /-- The record of the fatal condition that ended the run (R27, R87). -/
  fault     : Option Fault
  /-- The latched program bytes (R27, R34). -/
  prog      : Memory
  /-- `L`, the number of latched bytes; the spec sets no bound (R7, R27). -/
  progLen   : Nat
  /-- How many free values have been drawn. The model's own field: log entries 4 and 5. -/
  freeCount : Nat
  deriving DecidableEq, Repr

/-- The state in which the core is created: "all fields 0", IDLE, no fault, no program latched (R31, R104). The 0 in
`freeCount` is a DESIGN CHOICE (log entry 4). -/
def State.reset : State where
  regA := 0x00#8
  regX := 0x00#8
  status := 0x00#8
  pc := 0x0000#16
  mode := .idle
  fault := none
  prog := []
  progLen := 0
  freeCount := 0

end Sys2Proof.Machine
end

