-- ==== Sys2Proof/Machine/Ops.lean ====
section
/-! DEFINITION. The named operations over the program buffer, the registers and the control state. -/

namespace Sys2Proof.Machine

/-! ### The cell list -/

/-- The byte at an offset; an offset that is not listed reads as `Config.unlistedByte`. -/
def Memory.read : Memory → Nat → Byte
  | [], _ => Config.unlistedByte
  | (k, b) :: m, a => if k = a then b else Memory.read m a

/-- Every listed offset is at least `lo`, offsets rise strictly, and no cell holds `Config.unlistedByte`. -/
def Memory.wfFrom : Nat → Memory → Bool
  | _, [] => true
  | lo, (k, b) :: m => decide (lo ≤ k) && b != Config.unlistedByte && Memory.wfFrom (k + 1) m

/-- The canonical form of a cell list: equal programs are equal lists. -/
def Memory.wf (m : Memory) : Bool :=
  Memory.wfFrom 0 m

/-- Every listed offset lies below `n`. -/
def Memory.below (n : Nat) : Memory → Bool
  | [] => true
  | (k, _) :: m => decide (k < n) && Memory.below n m

/-- Put one byte at an offset, keeping the canonical form. No instruction uses it: the core has no store
(20_memory.md R39). It serves to lay code into the buffer from outside. -/
def Memory.write : Memory → Nat → Byte → Memory
  | [], a, v => if v = Config.unlistedByte then [] else [(a, v)]
  | (k, b) :: m, a, v =>
    if a < k then
      if v = Config.unlistedByte then (k, b) :: m else (a, v) :: (k, b) :: m
    else if a = k then
      if v = Config.unlistedByte then m else (a, v) :: m
    else (k, b) :: Memory.write m a v

/-- The cells of a byte sequence whose first byte has offset `n`. -/
def Memory.ofBytesFrom : Nat → List Byte → Memory
  | _, [] => []
  | n, b :: bs =>
    if b = Config.unlistedByte then Memory.ofBytesFrom (n + 1) bs
    else (n, b) :: Memory.ofBytesFrom (n + 1) bs

/-- The cells of a whole program: byte `i` at offset `i` (R34). -/
def Memory.ofBytes (program : List Byte) : Memory :=
  Memory.ofBytesFrom 0 program

/-! ### The program read -/

/-- `MemRead(addr, 1)`, the core's one memory access: out of bounds at or past `L`, else the byte at that offset
(R35). It changes no state (R39). It is also the program port: `addr` is `prog_addr`, the byte `prog_data` (R34). -/
def State.memRead (s : State) (addr : Word) : Except Fault Byte :=
  if s.progLen ≤ addr.toNat then .error (.outOfBoundsFetch addr)
  else .ok (s.prog.read addr.toNat)

/-! ### Registers and the program counter -/

/-- `x[A]`, `x[X]` as values (00_scope.md R11). -/
def State.readReg (s : State) : Reg → Byte
  | .a => s.regA
  | .x => s.regX

/-- `x[A] <- v`, `x[X] <- v` (R11). -/
def State.writeReg (s : State) (r : Reg) (v : Byte) : State :=
  match r with
  | .a => { s with regA := v }
  | .x => { s with regX := v }

/-- The program counter after one more byte read: plus 1, modulo 2^16 (R19). -/
def pcAfterByte (pc : Word) : Word := pc + 1#16

/-- `pc <- (pc + 1) mod 2^16`, done once for each byte of the instruction (R18, R19, R66, R68). -/
def State.advancePc (s : State) : State :=
  { s with pc := pcAfterByte s.pc }

/-! ### The ends of a run -/

/-- `halt`: the run ends normally; everything else stays as last set (R70). -/
def State.halt (s : State) : State :=
  { s with mode := .halted }

/-- Taking a fault, for both fatal conditions (R87): the record is written, the mode becomes FAULTED, and nothing is
saved and no handler entered (R93). The four CPU State fields are unspecified from then on (R30): each gets a free value,
and `freeCount` moves on so that the next fault draws others. -/
def State.takeFault (s : State) (f : Fault) : State :=
  { s with
    regA := Config.freeByte s.freeCount
    regX := Config.freeByte (s.freeCount + 1)
    status := Config.freeByte (s.freeCount + 2)
    pc := Config.freeWord s.freeCount
    mode := .faulted
    fault := some f
    freeCount := s.freeCount + 3 }

/-- The way back from a fault, and from any other mode: reset restores the creation state (R91, R94, R104). The model's
own counter of free values goes on counting (log entry 5). -/
def State.hostReset (s : State) : State :=
  { State.reset with freeCount := s.freeCount }

end Sys2Proof.Machine
end

