-- ==== Sys2Proof/Machine/Flags.lean ====
section
/-! DEFINITION. The status-flag update logic (41_flag_logic.md). -/

namespace Sys2Proof.Machine

/-- The two defined flags, as named booleans (R77). -/
structure Flags where
  zero     : Bool
  negative : Bool
  deriving DecidableEq, Repr

/-- The flags of a result byte: zero iff it is 0 (R78), negative iff its bit 7 is 1 (R79). -/
def flagsOf (r : Byte) : Flags where
  zero := r == 0x00#8
  negative := r.getLsbD 7

/-- Merge the flags into the stored status: Z at bit 1, N at bit 7; the mask 0x7D keeps the reserved bits (R77). -/
def mergeFlags (status : Byte) (f : Flags) : Byte :=
  (status &&& 0x7D#8) ||| ((BitVec.ofBool f.zero).setWidth 8 <<< 1) |||
    ((BitVec.ofBool f.negative).setWidth 8 <<< 7)

/-- `setZN(r)`: it writes `status` and nothing else (R77). -/
def State.setZN (s : State) (r : Byte) : State :=
  { s with status := mergeFlags s.status (flagsOf r) }

/-- Write an instruction's result register, then update the flags from that register (R76). -/
def State.writeResult (s : State) (r : Reg) (v : Byte) : State :=
  (s.writeReg r v).setZN ((s.writeReg r v).readReg r)

end Sys2Proof.Machine
end

