-- ==== Sys2Proof/Machine/Arithmetic.lean ====
section
/-! DEFINITION. The meaning of INX (43_arithmetic.md). -/

namespace Sys2Proof.Machine

/-- `INX` (R84): one byte read, X takes X + 1 modulo 2^8, Z and N from X; the wrap touches no other flag. -/
def execInx (s : State) : Host.Outcome State Fault Refusal :=
  .next (s.advancePc.writeResult .x (s.readReg .x + 1#8))

end Sys2Proof.Machine
end

