-- ==== Sys2Proof/Machine/Control.lean ====
section
/-! DEFINITION. The meaning of BRK (44_control.md). -/

namespace Sys2Proof.Machine

/-- `BRK` (R85): one byte read, the run halts; no register or flag changes, and no byte after it is read. -/
def execBrk (s : State) : Host.Outcome State Fault Refusal :=
  .next s.advancePc.halt

end Sys2Proof.Machine
end

