-- ==== Sys2Proof/Syntax.lean ====
section
/-! DEFINITION. The instructions: one constructor per row of spec/opcode_table.json (30_encoding.md R54). -/

namespace Sys2Proof

/-- The instruction set: exactly four instructions, with no aliases (00_scope.md R2, R60). Every register operand is
implied by the opcode (R52); the one operand in the program text is `LDA`'s byte (R51). -/
inductive Instr where
  /-- `BRK`, 0x00: halt the run (R85). -/
  | brk
  /-- `LDA #imm8`, 0xA9 imm8: load A with the literal byte (R82). -/
  | lda (imm8 : Byte)
  /-- `TAX`, 0xAA: copy A to X (R83). -/
  | tax
  /-- `INX`, 0xE8: increment X (R84). -/
  | inx
  deriving DecidableEq, Repr

end Sys2Proof
end

