-- ==== Sys2Proof/WellFormed.lean ====
section
/-! DEFINITION. Which instructions, and which byte sequences, are well formed (30_encoding.md R48 to R50, R54). -/

namespace Sys2Proof

/-- Every term of `Instr` is an instruction of the core: the one operand is a byte, and the type `BitVec 8` already
holds exactly the 256 values that `imm8` may take (R51). Nothing is left to check on the syntax. -/
def Instr.wellFormed : Instr → Bool
  | .brk => true
  | .lda _ => true
  | .tax => true
  | .inx => true

/-- The checks on bytes: is this sequence the code of exactly one instruction? It is read off the formats alone
(R49, R50, R54), not off the decoder, so that the decoder can be held against it. It refuses an empty sequence, an
undefined opcode, an `LDA` without its operand, and a byte too many. -/
def codeWellFormed : List Byte → Bool
  | [] => false
  | [op] => op == 0x00#8 || op == 0xAA#8 || op == 0xE8#8
  | [op, _] => op == 0xA9#8
  | _ :: _ :: _ :: _ => false

end Sys2Proof
end

