-- ==== Sys2Proof/Decode.lean ====
section
/-! DEFINITION. The decoder, total on any bytes and rejecting by name, and the encoder (30_encoding.md). -/

namespace Sys2Proof

/-- The closed set of instruction kinds an opcode can name (R54, R56). -/
inductive Kind where
  | brk
  | lda
  | tax
  | inx
  deriving DecidableEq, Repr

/-- What the opcode map answers for a byte: one of the four kinds, or the byte itself, named as undefined (R56). -/
inductive OpcodeClass where
  | known (k : Kind)
  | undefined (opcode : Byte)
  deriving DecidableEq, Repr

/-- Why a byte sequence does not begin with an instruction. -/
inductive DecodeError where
  /-- There is no byte to take as an opcode. -/
  | noOpcode
  /-- The opcode is one of the 252 undefined values (R57). -/
  | undefinedOpcode (opcode : Byte)
  /-- The opcode is `LDA`'s and no byte follows it (R50). -/
  | missingOperand
  deriving DecidableEq, Repr

/-- The opcode map, matched on all 8 bits of the opcode (R54, R55). The opcode has no sub-fields. -/
def decodeOpcode (op : Byte) : OpcodeClass :=
  if op = 0x00#8 then .known .brk
  else if op = 0xA9#8 then .known .lda
  else if op = 0xAA#8 then .known .tax
  else if op = 0xE8#8 then .known .inx
  else .undefined op

/-- The length of an instruction, told from the opcode alone (R53). -/
def Kind.length : Kind → Nat
  | .brk => 1
  | .lda => 2
  | .tax => 1
  | .inx => 1

/-- Put an instruction together from its kind and the read of its operand byte. Only format IMM looks at the operand,
so for the other kinds a failing read does not matter (R49, R50, R53). The operand byte is used unchanged (R51). -/
def Kind.assemble {ε : Type} (k : Kind) (operand : Except ε Byte) : Except ε Instr :=
  match k with
  | .brk => .ok .brk
  | .lda =>
    match operand with
    | .error e => .error e
    | .ok imm8 => .ok (.lda imm8)
  | .tax => .ok .tax
  | .inx => .ok .inx

/-- The operand byte of a 2-byte instruction, the first byte after the opcode (R50). -/
def operandByte : List Byte → Except DecodeError Byte
  | [] => .error .missingOperand
  | b :: _ => .ok b

/-- Decode the instruction at the head of a byte sequence; answer it with the bytes after it. -/
def decode : List Byte → Except DecodeError (Instr × List Byte)
  | [] => .error .noOpcode
  | op :: rest =>
    match decodeOpcode op with
    | .undefined b => .error (.undefinedOpcode b)
    | .known k =>
      match k.assemble (operandByte rest) with
      | .error e => .error e
      | .ok i => .ok (i, rest.drop (k.length - 1))

/-- The bytes of an instruction: the opcode, then the operand byte if it has one (R48 to R50, R54). -/
def encode : Instr → List Byte
  | .brk => [0x00#8]
  | .lda imm8 => [0xA9#8, imm8]
  | .tax => [0xAA#8]
  | .inx => [0xE8#8]

/-- The first two bytes of a table word of `nbits` bits: byte 0 in bits 7..0, byte 1 in bits 15..8, bits from `nbits`
up zero. Two bytes are the longest instruction (R48). -/
def tableWordBytes (nbits w : Nat) : Byte × Byte :=
  (BitVec.ofNat 8 (w % 2 ^ nbits), BitVec.ofNat 8 (w % 2 ^ nbits / 256))

/-- The instruction the decoder reads from a word of spec/opcode_table.json, laid out in increasing offsets (R37). -/
def decodeTableWord (nbits w : Nat) : Option Instr :=
  match decode [(tableWordBytes nbits w).1, (tableWordBytes nbits w).2] with
  | .ok (i, _) => some i
  | .error _ => none

end Sys2Proof
end

