-- ==== Sys2Proof/Machine/Operands.lean ====
section
/-! DEFINITION. The operand forms and the fetch of an instruction's bytes (30_encoding.md R48 to R52, 40_execution_loop.md
R66, R68). -/

namespace Sys2Proof.Machine

/-- The opcode fetch's read, at the program counter (R66). -/
def State.opcodeAtPc (s : State) : Except Fault Byte :=
  s.memRead s.pc

/-- Immediate addressing: the read of the literal byte after the opcode, at the program counter already advanced past the
opcode (R50, R51, R68). Out of bounds, it records the offset of the missing operand (D13). -/
def State.immediateAtPc (s : State) : Except Fault Byte :=
  s.memRead (pcAfterByte s.pc)

/-- Fetch and decode the instruction at the program counter, in the order of the step (R65, R92): the opcode read, then the
opcode map, then, for `LDA` only, the operand read. -/
def State.fetch (s : State) : Except Fault Instr :=
  match s.opcodeAtPc with
  | .error f => .error f
  | .ok op =>
    match decodeOpcode op with
    | .undefined b => .error (.unimplementedOpcode b)
    | .known k => k.assemble s.immediateAtPc

/-- The program bytes at the program counter and after it, as far as they are in bounds, at most the two of the longest
instruction: what the byte decoder is given when it is held against `State.fetch`. -/
def State.codeAtPc (s : State) : List Byte :=
  match s.opcodeAtPc with
  | .error _ => []
  | .ok op =>
    match s.immediateAtPc with
    | .error _ => [op]
    | .ok v => [op, v]

/-- Lay two code bytes at the program counter and make the core ready to fetch them: the buffer is extended to hold both
offsets, the mode is RUNNING and, as in every run (R62), no fault is recorded. Log entry 14. -/
def State.placeCode (s : State) (b0 b1 : Byte) : State :=
  { s with
    prog := (s.prog.write s.pc.toNat b0).write (pcAfterByte s.pc).toNat b1
    progLen := max s.progLen (max (s.pc.toNat + 1) ((pcAfterByte s.pc).toNat + 1))
    mode := .running
    fault := none }

end Sys2Proof.Machine
end

