-- ==== Sys2Proof/Machine/LoadsTransfers.lean ====
section
/-! DEFINITION. The meanings of LDA and TAX (42_loads_transfers.md). A meaning starts with the program counter at the
opcode and is the whole instruction (40_execution_loop.md R64). -/

namespace Sys2Proof.Machine

/-- `LDA #imm8` (R82): two bytes read, A takes the operand, Z and N from A. The operand's own read, which may be out of
bounds, is `State.immediateAtPc`, made before the byte is here as `imm8`. -/
def execLda (imm8 : Byte) (s : State) : Host.Outcome State Fault Refusal :=
  .next (s.advancePc.advancePc.writeResult .a imm8)

/-- `TAX` (R83): one byte read, X takes A, Z and N from X. -/
def execTax (s : State) : Host.Outcome State Fault Refusal :=
  .next (s.advancePc.writeResult .x (s.readReg .a))

end Sys2Proof.Machine
end

