-- ==== Sys2Proof/Machine/Dispatch.lean ====
section
/-! DEFINITION. Dispatch from the instruction to its meaning (40_execution_loop.md R67). -/

namespace Sys2Proof.Machine

/-- The instruction's effect on the state, the program counter's advance over its bytes included. -/
def exec (i : Instr) (s : State) : Host.Outcome State Fault Refusal :=
  match i with
  | .brk => Sys2Proof.Machine.execBrk s
  | .lda imm8 => Sys2Proof.Machine.execLda imm8 s
  | .tax => Sys2Proof.Machine.execTax s
  | .inx => Sys2Proof.Machine.execInx s

end Sys2Proof.Machine
end

