-- ==== Sys2Proof/Machine/Step.lean ====
section
/-! DEFINITION. One step of the Execution Loop (40_execution_loop.md R65). -/

namespace Sys2Proof.Machine

/-- One whole instruction, in mode RUNNING: fetch it, then run it; a fault of the fetch is the step's fault (R65, R87).
Outside mode RUNNING there is no step (R65; log entry 3). -/
def step (s : State) : Host.Outcome State Fault Refusal :=
  match s.mode with
  | .running =>
    match s.fetch with
    | .error f => .fault f
    | .ok i => exec i s
  | .idle | .halted | .faulted => .refused .notRunning

/-- The state with a table word laid where the next step fetches it, and the core RUNNING (log entries 2 and 14). -/
def State.withFetchWord (s : State) (nbits w : Nat) : State :=
  s.placeCode (tableWordBytes nbits w).1 (tableWordBytes nbits w).2

end Sys2Proof.Machine
end

