-- ==== Sys2Proof/Machine/HostPort.lean ====
section
/-! DEFINITION. What the host does to the core and sees of it: reset, `interpret`, the state port and the output signals
(10_state.md section 7, 40_execution_loop.md R62, R63, 60_exceptions.md R86). -/

namespace Sys2Proof.Machine

/-- The moves of the host (D3): the `reset` input, `interpret(program)` (the `start` input), and a write of one whole
field through the state port (R28). -/
inductive HostMove where
  | reset
  | interpret (program : List Byte)
  | writeReg (r : Reg) (v : Byte)
  | writeStatus (v : Byte)
  | writePc (v : Word)
  deriving DecidableEq, Repr

/-- What the start of a run does, in order (R62): latch the program and its length, `pc <- 0`, RUNNING, no fault. A, X
and `status` stay as they were (R32). -/
def State.startRun (s : State) (program : List Byte) : State :=
  { s with
    prog := Memory.ofBytes program
    progLen := program.length
    pc := Config.entryPoint
    mode := .running
    fault := none }

/-- `interpret(program)`: allowed in IDLE and HALTED (R62), refused in FAULTED (R91), and not possible while RUNNING,
because the call is synchronous (R28, U8). -/
def interpret (program : List Byte) (s : State) : Host.Outcome State Fault Refusal :=
  match s.mode with
  | .idle | .halted => .next (s.startRun program)
  | .running => .refused .hostDuringRun
  | .faulted => .refused .faultedUntilReset

/-- A write through the state port: used only while the mode is not RUNNING (R28, R63). -/
def portWrite (write : State → State) (s : State) : Host.Outcome State Fault Refusal :=
  match s.mode with
  | .running => .refused .hostDuringRun
  | .idle | .halted | .faulted => .next (write s)

/-- One move of the host. -/
def hostMove (m : HostMove) (s : State) : Host.Outcome State Fault Refusal :=
  match m with
  | .reset => .next s.hostReset
  | .interpret program => interpret program s
  | .writeReg r v => portWrite (fun t => t.writeReg r v) s
  | .writeStatus v => portWrite (fun t => { t with status := v }) s
  | .writePc v => portWrite (fun t => { t with pc := v }) s

/-- The CPU State's four fields (R13). -/
def State.cpu (s : State) : CpuState where
  regA := s.regA
  regX := s.regX
  status := s.status
  pc := s.pc

/-- A read through the state port: used only while the mode is not RUNNING (R28). After a fault the values read are free
ones (R30). -/
def portRead (s : State) : Except Refusal CpuState :=
  match s.mode with
  | .running => .error .hostDuringRun
  | .idle | .halted | .faulted => .ok s.cpu

/-! ### The output signals (R63) -/

/-- `busy`: a run is on. -/
def State.busy (s : State) : Bool := s.mode == .running

/-- `halted`: the last run ended by `BRK`. -/
def State.haltedSignal (s : State) : Bool := s.mode == .halted

/-- `fault_valid`: a fault ended the last run. -/
def State.faultValid (s : State) : Bool := s.mode == .faulted

/-- The number of a fatal condition (R86, the spec's own numbering, D5). -/
def Fault.kind : Fault → Nat
  | .outOfBoundsFetch _ => 1
  | .unimplementedOpcode _ => 2

/-- The 16-bit record of a fatal condition: the offset, or the opcode zero-extended (R86). -/
def Fault.info : Fault → Word
  | .outOfBoundsFetch offset => offset
  | .unimplementedOpcode opcode => opcode.setWidth 16

/-- `fault_kind`: 0 when there is no fault (R86). -/
def State.faultKind (s : State) : Nat :=
  match s.fault with
  | none => 0
  | some f => f.kind

/-- `fault_info`: the record of the fault; the spec gives it no value when there is none (R63), and here it then has
none (log entry 9). -/
def State.faultInfo (s : State) : Option Word :=
  s.fault.map Fault.info

end Sys2Proof.Machine
end

