-- ==== Sys2Proof/Machine/Loop.lean ====
section
/-! DEFINITION. The core and the host together: the control state machine of 40_execution_loop.md R63, and whole runs
under the executor's step budget (D11). -/

namespace Sys2Proof.Machine

/-- The state an outcome leaves behind: a next state is itself, a fault is taken (R87), a refusal changes nothing. -/
def settle (s : State) : Host.Outcome State Fault Refusal → State
  | .next t => t
  | .fault f => s.takeFault f
  | .refused _ => s

/-- One transition of the whole: a step of the core, or a move of the host between steps (D4). -/
inductive Move where
  | core
  | host (m : HostMove)
  deriving DecidableEq, Repr

/-- The state after one transition (R63). -/
def move (m : Move) (s : State) : State :=
  match m with
  | .core => settle s (step s)
  | .host h => settle s (hostMove h s)

/-- The state after a sequence of transitions. -/
def moves : List Move → State → State
  | [], s => s
  | m :: ms, s => moves ms (move m s)

/-- What is seen of a run (D12): the CPU State after a halt, the record after a fault, or "no verdict" when the step budget
runs out (D11); a run that was refused did not begin. -/
inductive RunResult where
  | halted (cpu : CpuState)
  | faulted (f : Fault)
  | noVerdict
  | refused (r : Refusal)
  deriving DecidableEq, Repr

/-- Run the loop for at most `fuel` steps (D11). Running out of fuel is no verdict: neither a halt nor a fault. -/
def execute : Nat → State → RunResult
  | 0, _ => .noVerdict
  | fuel + 1, s =>
    match step s with
    | .fault f => .faulted f
    | .refused r => .refused r
    | .next t =>
      match t.mode with
      | .halted => .halted t.cpu
      | .idle | .running | .faulted => execute fuel t

/-- `interpret(program)` as the host sees it, under a step budget: the start of the run (R62), then the run (R70, R71). -/
def interpretRun (fuel : Nat) (program : List Byte) (s : State) : RunResult :=
  match interpret program s with
  | .next t => execute fuel t
  | .fault f => .faulted f
  | .refused r => .refused r

end Sys2Proof.Machine
end

