-- ==== Sys2Proof/Safety.lean ====
section
/-! DEFINITION. The terms claims are made in: the invariant of the state, how a run can end, what the flags describe, and
machines that differ only in their program. -/

namespace Sys2Proof.Machine

/-- The next state of an outcome, if it has one. -/
def nextOf : Host.Outcome State Fault Refusal → Option State
  | .next t => some t
  | .fault _ => none
  | .refused _ => none

/-- The invariant: the latched program's cell list is in canonical form and lies below `L` (the model's representation of
R34's byte sequence, a DESIGN CHOICE, log entry 6), and a fault is recorded exactly in mode FAULTED (R62, R63, R87). -/
structure State.Inv (s : State) : Prop where
  canonical : s.prog.wf = true
  inBuffer : s.prog.below s.progLen = true
  faultedIffRecorded : s.mode = .faulted ↔ s.fault.isSome = true

/-- The run ends by `BRK`, seen as `cpu` (R70). -/
def EndsNormally (s : State) (cpu : CpuState) : Prop :=
  ∃ fuel, execute fuel s = .halted cpu

/-- The run ends in a fatal condition (R71). -/
def EndsInFault (s : State) (f : Fault) : Prop :=
  ∃ fuel, execute fuel s = .faulted f

/-- The run never ends: no step budget is enough (R74). -/
def Diverges (s : State) : Prop :=
  ∀ fuel, execute fuel s = .noVerdict

/-- A safe run: no fatal condition is ever met. Divergence is safe; halting is safe. -/
def NeverFaults (s : State) : Prop :=
  ∀ f, ¬ EndsInFault s f

/-- Z and N of this status describe this result byte (R78, R79). -/
def FlagsDescribe (status r : Byte) : Prop :=
  status.getLsbD 1 = (r == 0x00#8) ∧ status.getLsbD 7 = r.getLsbD 7

/-- The status bits the spec reserves: 0 and 2 to 6 (R24). -/
def reservedBits : List Nat := [0, 2, 3, 4, 5, 6]

/-- Two status bytes agree on every reserved bit. -/
def SameReserved (p q : Byte) : Prop :=
  ∀ k ∈ reservedBits, p.getLsbD k = q.getLsbD k

/-- Nothing of the latched program changed: same length, every offset reads as before (R34, R39). -/
def SameProgram (s t : State) : Prop :=
  t.progLen = s.progLen ∧ ∀ a, t.prog.read a = s.prog.read a

/-- The control state beside the program is as it was: mode, fault record, and the model's free-value counter. -/
def SameControl (s t : State) : Prop :=
  t.mode = s.mode ∧ t.fault = s.fault ∧ t.freeCount = s.freeCount

/-- In mode RUNNING, with this opcode in bounds at the program counter. -/
def State.AtOpcode (s : State) (op : Byte) : Prop :=
  s.mode = .running ∧ s.pc.toNat < s.progLen ∧ s.prog.read s.pc.toNat = op

/-- No host write of `status` and no reset among these transitions (R24). -/
def NoStatusWrite (ms : List Move) : Prop :=
  ∀ m ∈ ms, m ≠ .host .reset ∧ ∀ v, m ≠ .host (.writeStatus v)

/-- No new program is latched and nothing is reset among these transitions (R46). -/
def NoNewProgram (ms : List Move) : Prop :=
  ∀ m ∈ ms, m ≠ .host .reset ∧ ∀ program, m ≠ .host (.interpret program)

/-- The result register of an instruction: A for `LDA`, X for `TAX` and `INX`, none for `BRK` (R76). -/
def resultRegOf : Instr → Option Reg
  | .brk => none
  | .lda _ => some .a
  | .tax => some .x
  | .inx => some .x

/-- Which register the flags describe after one more transition (R81), given the one they described before: a completed
flag-affecting instruction makes it that instruction's result register; a host write of `status` or of that register, a
reset, and a fault make it none. -/
def describedAfter (m : Move) (s : State) (r : Option Reg) : Option Reg :=
  match m with
  | .core =>
    match s.mode with
    | .running =>
      match s.fetch with
      | .error _ => none
      | .ok i => (resultRegOf i).or r
    | .idle | .halted | .faulted => r
  | .host .reset => none
  | .host (.interpret _) => r
  | .host (.writeReg q _) => if s.mode ≠ .running ∧ r = some q then none else r
  | .host (.writeStatus _) => if s.mode ≠ .running then none else r
  | .host (.writePc _) => r

/-- `describedAfter` along a sequence of transitions. -/
def describedAfterAll : List Move → State → Option Reg → Option Reg
  | [], _, r => r
  | m :: ms, s, r => describedAfterAll ms (move m s) (describedAfter m s r)

/-- The same machine with another program latched. -/
def State.withProgram (s : State) (prog : Memory) (progLen : Nat) : State :=
  { s with prog := prog, progLen := progLen }

/-- An outcome with its next state changed, and its fault or refusal kept. -/
def mapNext (g : State → State) :
    Host.Outcome State Fault Refusal → Host.Outcome State Fault Refusal
  | .next t => .next (g t)
  | .fault f => .fault f
  | .refused r => .refused r

/-- The three RUNNING rows of R63, each with its event: a step that raises a fault ends FAULTED, one that executes `BRK`
ends HALTED, any other that answers a next state stays RUNNING. -/
structure RunningRows (s : State) (dst : Mode) : Prop where
  onFault : ∀ f, step s = .fault f → dst = .faulted
  onBrk : s.fetch = .ok .brk → dst = .halted
  otherwise : ∀ t, step s = .next t → s.fetch ≠ .ok .brk → dst = .running

/-- The rows of the control state machine (R63): the mode that a move from this state leads to, by the event. Outside
RUNNING a step is none; a refused move stays where it is. -/
def controlTable (s : State) (m : Move) (dst : Mode) : Prop :=
  match m with
  | .core =>
    match s.mode with
    | .running => RunningRows s dst
    | .idle | .halted | .faulted => dst = s.mode
  | .host .reset => dst = .idle
  | .host (.interpret _) =>
    match s.mode with
    | .idle | .halted => dst = .running
    | .running | .faulted => dst = s.mode
  | .host (.writeReg _ _) | .host (.writeStatus _) | .host (.writePc _) => dst = s.mode

end Sys2Proof.Machine
end

