-- ==== Sys2Proof/Certificates/Slice0/Obligations.lean ====
section
/-! DEFINITION. The statements for the provers, about the machine only. Each docstring names the rule it comes from. -/

open Sys2Proof Sys2Proof.Machine

/-! ### Encoding -/

/-- R54: the opcode map matches on all 8 bits, the four rows and no other, with their lengths. -/
def Obligations.OpcodeMapIsTheTable : Prop :=
  (∀ op : Byte,
    (decodeOpcode op = .known .brk ↔ op = 0x00#8) ∧
    (decodeOpcode op = .known .lda ↔ op = 0xA9#8) ∧
    (decodeOpcode op = .known .tax ↔ op = 0xAA#8) ∧
    (decodeOpcode op = .known .inx ↔ op = 0xE8#8) ∧
    (decodeOpcode op = .undefined op ↔ op ∉ [0x00#8, 0xA9#8, 0xAA#8, 0xE8#8])) ∧
  Kind.brk.length = 1 ∧ Kind.lda.length = 2 ∧ Kind.tax.length = 1 ∧ Kind.inx.length = 1

/-- R49, R50, R54: words written out bit by bit from the table of R54 decode to the instruction they stand for. -/
def Obligations.WrittenWordsDecode : Prop :=
  decode [0b00000000#8, 0xFF#8] = .ok (.brk, [0xFF#8]) ∧
  decode [0b10101001#8, 0b00000101#8, 0x00#8] = .ok (.lda 0x05#8, [0x00#8]) ∧
  decode [0b10101010#8, 0x00#8] = .ok (.tax, [0x00#8]) ∧
  decode [0b11101000#8, 0xA9#8] = .ok (.inx, [0xA9#8]) ∧
  decode [0b11101010#8, 0x00#8] = .error (.undefinedOpcode 0xEA#8)

/-- R48 to R51, R54: decoding and encoding agree both ways, for every instruction, every operand value and whatever
follows: the decoder answers `i` with the rest exactly when the bytes are the code of `i` before that rest. -/
def Obligations.DecodeInvertsEncode : Prop :=
  ∀ (bs : List Byte) (i : Instr) (rest : List Byte),
    decode bs = .ok (i, rest) ↔ bs = encode i ++ rest

/-- R53, R56: the decoder is total and rejects by name: no opcode exactly for no bytes, a missing operand exactly for a
lone `LDA` opcode, an undefined opcode exactly for the undefined first bytes. -/
def Obligations.DecoderRejectsExactlyByName : Prop :=
  ∀ bs : List Byte,
    (decode bs = .error .noOpcode ↔ bs = []) ∧
    (decode bs = .error .missingOperand ↔ bs = [0xA9#8]) ∧
    (∀ b, decode bs = .error (.undefinedOpcode b) ↔
      bs.head? = some b ∧ b ∉ [0x00#8, 0xA9#8, 0xAA#8, 0xE8#8])

/-- R48 to R50: the decoder consumes all of a byte sequence exactly when the sequence has one of the two formats, as
`codeWellFormed` reads them off the format tables without the decoder. -/
def Obligations.DecoderAcceptsExactlyTheFormats : Prop :=
  ∀ bs : List Byte, (∃ i, decode bs = .ok (i, [])) ↔ codeWellFormed bs = true

/-! ### The program buffer -/

/-- R35: the program read. In any state it faults at or past `L` with the offset, and returns the stored byte below `L`;
after a program is latched, that byte is the program's byte at that offset. -/
def Obligations.MemReadReturnsStoredByte : Prop :=
  (∀ (s : State) (addr : Word),
    (s.progLen ≤ addr.toNat → s.memRead addr = .error (.outOfBoundsFetch addr)) ∧
    (addr.toNat < s.progLen → s.memRead addr = .ok (s.prog.read addr.toNat))) ∧
  ∀ (program : List Byte) (s t : State), interpret program s = .next t →
    ∀ (addr : Word) (b : Byte),
      t.memRead addr = .ok b ↔ program[addr.toNat]? = some b

/-- The canonical form (the model's representation of R34's byte sequence, log entry 6): two cell lists in the form that
read alike everywhere are the same list. -/
def Obligations.CanonicalMemoriesAreEqual : Prop :=
  ∀ m m' : Memory, m.wf = true → m'.wf = true → (∀ a, m.read a = m'.read a) → m = m'

/-- R34, R39, R46: no sequence of steps and host moves that starts no new run and resets nothing changes a byte of the
program or its length. -/
def Obligations.ProgramIsImmutable : Prop :=
  ∀ (ms : List Move) (s : State), NoNewProgram ms → SameProgram s (moves ms s)

/-- R7, R41 (the unbounded length and the reach of offsets: the spec's own decision D7, log entry 11): bytes at offsets of
65536 and above are never read. Two machines whose programs agree below 65536, in
bytes and in bounds, give the same result of the run under every step budget. -/
def Obligations.BytesPast64KNeverMatter : Prop :=
  ∀ (s : State) (prog : Memory) (progLen : Nat),
    (∀ a < 65536, prog.read a = s.prog.read a) →
    (∀ a < 65536, a < progLen ↔ a < s.progLen) →
    ∀ fuel, execute fuel (s.withProgram prog progLen) = execute fuel s

/-- R36, R53, R85: a step reads only the opcode's byte and, for opcode 0xA9 only, the byte after it. With another program
that reads the same there, the step has the same outcome, but for the program it carries along. -/
def Obligations.StepReadsOnlyItsInstruction : Prop :=
  ∀ (s : State) (prog : Memory) (progLen : Nat),
    (s.withProgram prog progLen).memRead s.pc = s.memRead s.pc →
    (s.memRead s.pc = .ok 0xA9#8 →
      (s.withProgram prog progLen).memRead (s.pc + 1#16) = s.memRead (s.pc + 1#16)) →
    step (s.withProgram prog progLen) =
      mapNext (fun t => t.withProgram prog progLen) (step s)

/-! ### Flags -/

/-- R77: `setZN` writes exactly the merged byte of the rule's formula into `status`, and nothing else. -/
def Obligations.SetZNFollowsItsFormula : Prop :=
  ∀ (s : State) (r : Byte),
    s.setZN r =
      { s with
        status := (s.status &&& 0x7D#8) ||| ((if r = 0x00#8 then 1#8 else 0#8) <<< 1) |||
          ((if r.getLsbD 7 then 1#8 else 0#8) <<< 7) }

/-- R78, R79: Z is set by the result 0x00 and cleared by every other; N is set by the results 0x80 to 0xFF and cleared by
the others, and it is status bit 7, mask 0x80. -/
def Obligations.ZeroAndNegativeFlagValues : Prop :=
  ∀ (s : State) (r : Byte),
    ((s.setZN r).status.getLsbD 1 = true ↔ r = 0x00#8) ∧
    ((s.setZN r).status.getLsbD 7 = true ↔ 0x80 ≤ r.toNat) ∧
    ((s.setZN r).status &&& 0x80#8 = 0x80#8 ↔ 0x80 ≤ r.toNat)

/-- R80, R24: the three flag-affecting instructions change no reserved status bit, and never leave Z and N both set;
`BRK` changes no status bit. -/
def Obligations.ReservedBitsKeptAndFlagsExclusive : Prop :=
  ∀ (i : Instr) (s t : State), exec i s = .next t →
    SameReserved t.status s.status ∧
    (i = .brk → t.status = s.status) ∧
    (i ≠ .brk → ¬ (t.status.getLsbD 1 = true ∧ t.status.getLsbD 7 = true))

/-- R81: along any sequence of steps and host moves from any state, whenever the last completed flag-affecting instruction
has a result register and the host has since written neither `status` nor that register (`describedAfterAll` keeps
count of it; a fault or a reset ends it), Z and N describe that register. -/
def Obligations.FlagsDescribeTheResultRegister : Prop :=
  ∀ (ms : List Move) (s : State) (r : Reg), describedAfterAll ms s none = some r →
    FlagsDescribe (moves ms s).status ((moves ms s).readReg r)

/-- R24: the reserved status bits survive any sequence of steps and host moves, whole runs and starts of runs among them,
in which the host neither writes `status` nor resets, as long as no fault ends a run (after a fault the values are
unspecified, R30). -/
def Obligations.ReservedBitsSurviveRuns : Prop :=
  ∀ (ms : List Move) (s : State), NoStatusWrite ms →
    (moves ms s).mode ≠ .faulted → s.mode ≠ .faulted →
    SameReserved (moves ms s).status s.status

/-! ### The instructions -/

/-- R82 (with R68 and the spec's own decision D13 for a missing operand): `LDA #imm8`. Its effect, for every state and
operand, is a next state with A the operand, Z and N describing it, the reserved bits kept, pc past both bytes and
everything else unchanged; a step at opcode 0xA9 reads the operand at the next offset, modulo 2^16, and runs that
effect, or faults with that offset when it is out of bounds. -/
def Obligations.LdaLoadsTheAccumulator : Prop :=
  (∀ (imm8 : Byte) (s : State), ∃ t, exec (.lda imm8) s = .next t ∧
    t.regA = imm8 ∧ t.regX = s.regX ∧
    FlagsDescribe t.status imm8 ∧ SameReserved t.status s.status ∧
    t.pc = s.pc + 2#16 ∧ SameControl s t ∧ SameProgram s t) ∧
  ∀ s : State, s.AtOpcode 0xA9#8 →
    ((s.pc + 1#16).toNat < s.progLen →
      step s = exec (.lda (s.prog.read (s.pc + 1#16).toNat)) s) ∧
    (s.progLen ≤ (s.pc + 1#16).toNat →
      step s = .fault (.outOfBoundsFetch (s.pc + 1#16)))

/-- R83: `TAX`. Its effect, for every state, is a next state with X the old A, A unchanged, Z and N describing X, the
reserved bits kept, pc past the one byte and everything else unchanged; a step at opcode 0xAA runs it, with no fault of
its own. -/
def Obligations.TaxCopiesAToX : Prop :=
  (∀ s : State, ∃ t, exec .tax s = .next t ∧
    t.regX = s.regA ∧ t.regA = s.regA ∧
    FlagsDescribe t.status t.regX ∧ SameReserved t.status s.status ∧
    t.pc = s.pc + 1#16 ∧ SameControl s t ∧ SameProgram s t) ∧
  ∀ s : State, s.AtOpcode 0xAA#8 → step s = exec .tax s

/-- R84: `INX`. Its effect, for every state, is a next state with X plus 1 modulo 2^8 (0xFF gives 0x00, no fault), A
unchanged, Z and N describing the new X, the reserved bits kept, pc past the one byte and everything else unchanged; a
step at opcode 0xE8 runs it. -/
def Obligations.InxIncrementsX : Prop :=
  (∀ s : State, ∃ t, exec .inx s = .next t ∧
    t.regX.toNat = (s.regX.toNat + 1) % 256 ∧ t.regA = s.regA ∧
    FlagsDescribe t.status t.regX ∧ SameReserved t.status s.status ∧
    t.pc = s.pc + 1#16 ∧ SameControl s t ∧ SameProgram s t) ∧
  ∀ s : State, s.AtOpcode 0xE8#8 → step s = exec .inx s

/-- R85: `BRK`. Its effect, for every state, is a next state in mode HALTED with pc past the one byte and every other field
unchanged; a step at opcode 0x00 runs it, whatever the program holds at any other offset and wherever it ends. -/
def Obligations.BrkHalts : Prop :=
  (∀ s : State, exec .brk s = .next { s with pc := s.pc + 1#16, mode := .halted }) ∧
  ∀ s : State, s.AtOpcode 0x00#8 → step s = exec .brk s

/-- R14 to R17, R22, R39, R67: the frame of every instruction. A is written by `LDA` only, X by `TAX` and `INX` only, the
mode by `BRK` only; no instruction writes the fault record, a byte of the program or its length. -/
def Obligations.InstructionFrames : Prop :=
  ∀ (i : Instr) (s t : State), exec i s = .next t →
    (t.regA ≠ s.regA → ∃ v, i = .lda v) ∧
    (t.regX ≠ s.regX → i = .tax ∨ i = .inx) ∧
    (t.status ≠ s.status → i ≠ .brk) ∧
    (t.mode ≠ s.mode → i = .brk) ∧
    t.fault = s.fault ∧ t.freeCount = s.freeCount ∧ SameProgram s t

/-- R14, R15, R17, R22, R23: what an instruction reads. Its results depend on A only for `TAX`, on X only for `INX`, on
`status` never: run it from two states that share just that, and the register it writes, its Z and N, and the pc's
advance come out the same. -/
def Obligations.InstructionsReadOnlyTheirRegister : Prop :=
  ∀ (i : Instr) (s s' t t' : State), exec i s = .next t → exec i s' = .next t' →
    (i = .tax → s.regA = s'.regA) → (i = .inx → s.regX = s'.regX) →
    (∀ r, resultRegOf i = some r →
      t.readReg r = t'.readReg r ∧
      t.status.getLsbD 1 = t'.status.getLsbD 1 ∧ t.status.getLsbD 7 = t'.status.getLsbD 7) ∧
    t.pc - s.pc = t'.pc - s'.pc

/-! ### The step -/

/-- R64, R65: when the bytes at the program counter decode to an instruction, a step of the running core is that
instruction's effect, and nothing is added around it. -/
def Obligations.StepRunsDecodedInstruction : Prop :=
  ∀ (s : State) (i : Instr) (rest : List Byte), s.mode = .running →
    decode s.codeAtPc = .ok (i, rest) → step s = exec i s

/-- R64, R65, R38, R58 (a code that lies over the wrap: the spec's own decision D7, log entry 11): when the code of an
instruction lies in bounds at the program counter, whatever the offset and with the offsets taken modulo 2^16, a step of the running core is that instruction's effect. -/
def Obligations.StepRunsCodeAtPc : Prop :=
  ∀ (s : State) (i : Instr), s.mode = .running →
    (∀ (k : Nat) (b : Byte), (encode i)[k]? = some b →
      (s.pc + BitVec.ofNat 16 k).toNat < s.progLen ∧
      s.prog.read (s.pc + BitVec.ofNat 16 k).toNat = b) →
    step s = exec i s

/-- R65, R66, R68: the core's fetch and the byte decoder are one: the fetch answers what the decoder answers on the program
bytes at the program counter, each rejection as the fault the rules give it. -/
def Obligations.FetchAgreesWithDecoder : Prop :=
  ∀ s : State,
    s.fetch =
      match decode s.codeAtPc with
      | .ok (i, _) => .ok i
      | .error .noOpcode => .error (.outOfBoundsFetch s.pc)
      | .error (.undefinedOpcode b) => .error (.unimplementedOpcode b)
      | .error .missingOperand => .error (.outOfBoundsFetch (s.pc + 1#16))

/-- The model's loading interface (log entry 14): a table word laid down by `withFetchWord` in a state whose program is in
canonical form is the instruction the next step runs. -/
def Obligations.FetchWordIsRunNext : Prop :=
  ∀ (s : State) (nbits w : Nat) (i : Instr), s.prog.wf = true →
    decodeTableWord nbits w = some i →
    step (s.withFetchWord nbits w) = exec i (s.withFetchWord nbits w)

/-- R88, R89, R92 (the operand's record by D13): when and how a step faults: exactly for an opcode fetch out of bounds, for
an undefined opcode, or for an `LDA` whose operand is out of bounds, each with its record; otherwise, RUNNING, it
answers a next state. -/
def Obligations.StepFaultsExactly : Prop :=
  ∀ s : State, s.mode = .running →
    (∀ f, step s = .fault f ↔
      (s.progLen ≤ s.pc.toNat ∧ f = .outOfBoundsFetch s.pc) ∨
      (s.pc.toNat < s.progLen ∧ s.prog.read s.pc.toNat ∉ [0x00#8, 0xA9#8, 0xAA#8, 0xE8#8] ∧
        f = .unimplementedOpcode (s.prog.read s.pc.toNat)) ∨
      (s.pc.toNat < s.progLen ∧ s.prog.read s.pc.toNat = 0xA9#8 ∧
        s.progLen ≤ (s.pc + 1#16).toNat ∧ f = .outOfBoundsFetch (s.pc + 1#16))) ∧
    ((∃ f, step s = .fault f) ∨ ∃ t, step s = .next t)

/-- R57: the 252 opcode values other than 0x00, 0xA9, 0xAA and 0xE8 are undefined, and executing any of them raises
`UnimplementedOpcode` of that opcode, whatever follows it. -/
def Obligations.UndefinedOpcodeFaults : Prop :=
  (∀ (s : State) (op : Byte), op ∉ [0x00#8, 0xA9#8, 0xAA#8, 0xE8#8] → s.AtOpcode op →
    step s = .fault (.unimplementedOpcode op)) ∧
  ((List.range 256).filter fun n =>
    decodeOpcode (BitVec.ofNat 8 n) == .undefined (BitVec.ofNat 8 n)).length = 252

/-- R65 ("requires mode == RUNNING"; log entry 3): a step is refused exactly outside mode RUNNING, always by that name. -/
def Obligations.StepRefusedExactlyOutsideRunning : Prop :=
  ∀ (s : State) (r : Refusal),
    step s = .refused r ↔ s.mode ≠ .running ∧ r = .notRunning

/-- R18, R19, R69: a step that answers a next state advances pc by one for each byte it read, modulo 2^16: by 2 at opcode
0xA9, by 1 at the others. -/
def Obligations.StepAdvancesPc : Prop :=
  ∀ s t : State, step s = .next t →
    t.pc.toNat =
      (s.pc.toNat + if s.prog.read s.pc.toNat = 0xA9#8 then 2 else 1) % 65536

/-- R70, R63 ("the only non-error exit"): a step of the running core that answers a next state ends HALTED exactly at opcode
0x00, and stays RUNNING at every other. -/
def Obligations.OnlyBrkEndsARunNormally : Prop :=
  ∀ s t : State, step s = .next t →
    (t.mode = .halted ↔ s.prog.read s.pc.toNat = 0x00#8) ∧
    (t.mode = .running ↔ s.prog.read s.pc.toNat ≠ 0x00#8)

/-- R75, R85: a `BRK` at the last offset of the program halts normally with pc equal to `L`, modulo 2^16. -/
def Obligations.BrkAtTheLastOffsetHalts : Prop :=
  ∀ s : State, s.AtOpcode 0x00#8 → s.pc.toNat + 1 = s.progLen →
    ∃ t, step s = .next t ∧ t.mode = .halted ∧ t.pc.toNat = s.progLen % 65536

/-! ### Whole runs -/

/-- R73: every run of a program of at most 65535 bytes ends: it halts within `L` steps or faults within `L + 1`. -/
def Obligations.ShortProgramsTerminate : Prop :=
  ∀ (program : List Byte) (s : State), program.length ≤ 65535 →
    s.mode = .idle ∨ s.mode = .halted →
    (∃ cpu, interpretRun program.length program s = .halted cpu) ∨
    (∃ f, interpretRun (program.length + 1) program s = .faulted f)

/-- R74 (that a run goes on at offset 0 after the wrap is the spec's own decision D7, log entry 11, unsafe for claims about
such long programs): divergence is a behaviour. Where the offsets 0 to 65535 are all in bounds and all hold 0xE8, the run never ends,
and after `n` steps X has been incremented `n` times. -/
def Obligations.AllInxDiverges : Prop :=
  ∀ s : State, s.mode = .running → 65536 ≤ s.progLen →
    (∀ a < 65536, s.prog.read a = 0xE8#8) →
    Diverges s ∧
    ∀ n, (moves (List.replicate n .core) s).regX = s.regX + BitVec.ofNat 8 n

/-- D11: the step budget is no part of the machine: a verdict reached with one budget is the verdict of every larger one. -/
def Obligations.BudgetDoesNotChangeTheVerdict : Prop :=
  ∀ (s : State) (n m : Nat), n ≤ m → execute n s ≠ .noVerdict → execute m s = execute n s

/-- R64, R71, D12: a verdict of the executor is the end that the transitions of the machine reach: HALTED with the CPU State
seen, or FAULTED with the record seen, within the budget. -/
def Obligations.VerdictsAreReachedByTransitions : Prop :=
  ∀ (fuel : Nat) (s : State),
    (∀ cpu, execute fuel s = .halted cpu →
      ∃ n ≤ fuel, (moves (List.replicate n .core) s).mode = .halted ∧
        (moves (List.replicate n .core) s).cpu = cpu) ∧
    (∀ f, execute fuel s = .faulted f →
      ∃ n ≤ fuel, (moves (List.replicate n .core) s).mode = .faulted ∧
        (moves (List.replicate n .core) s).fault = some f)

/-- R110: no hazard. A `TAX` right after an `LDA` copies the value just loaded, wherever the two stand in bounds. -/
def Obligations.TaxAfterLdaSeesTheNewA : Prop :=
  ∀ s : State, s.AtOpcode 0xA9#8 →
    (s.pc + 1#16).toNat < s.progLen → (s.pc + 2#16).toNat < s.progLen →
    s.prog.read (s.pc + 2#16).toNat = 0xAA#8 →
    (moves [.core, .core] s).regX = s.prog.read (s.pc + 1#16).toNat ∧
    (moves [.core, .core] s).regA = s.prog.read (s.pc + 1#16).toNat

/-- R108: an empty program is not refused: from IDLE and from HALTED `interpret` starts its run, and that run's first step
faults with offset 0. -/
def Obligations.EmptyProgramFaults : Prop :=
  ∀ s : State, s.mode = .idle ∨ s.mode = .halted →
    ∃ t, interpret [] s = .next t ∧ step t = .fault (.outOfBoundsFetch 0x0000#16)

/-! ### Faults -/

/-- R87 (mode and record: D2): a fault of a step is recorded as it was raised, with mode FAULTED, and the program is left as
it was. Nothing is stated of A, X, `status` and pc (R30). -/
def Obligations.FaultIsRecorded : Prop :=
  ∀ (s : State) (f : Fault), step s = .fault f →
    (move .core s).mode = .faulted ∧ (move .core s).fault = some f ∧
    SameProgram s (move .core s)

/-- R86, R63 (numbers and widths: D5): the fault outputs of a fault just raised, and of a state without a fault. -/
def Obligations.FaultSignals : Prop :=
  (∀ (s : State) (offset : Word), step s = .fault (.outOfBoundsFetch offset) →
    (move .core s).faultValid = true ∧ (move .core s).faultKind = 1 ∧
    (move .core s).faultInfo = some offset) ∧
  (∀ (s : State) (op : Byte), step s = .fault (.unimplementedOpcode op) →
    (move .core s).faultValid = true ∧ (move .core s).faultKind = 2 ∧
    ((move .core s).faultInfo.map BitVec.toNat) = some op.toNat) ∧
  ∀ s : State, s.fault = none → s.faultKind = 0

/-- R91, R94 (the spec's own decision D6): a fault is sticky. Whatever steps and host moves follow, reset apart, the mode
stays FAULTED and the record stays. -/
def Obligations.FaultStaysUntilReset : Prop :=
  ∀ (ms : List Move) (s : State), (∀ m ∈ ms, m ≠ .host .reset) → s.mode = .faulted →
    (moves ms s).mode = .faulted ∧ (moves ms s).fault = s.fault

/-! ### Reset, the start of a run and the host's port -/

/-- R31, R104 (mode, fault and program: D9): the state after reset, the creation state. -/
def Obligations.ResetState : Prop :=
  State.reset.regA = 0x00#8 ∧ State.reset.regX = 0x00#8 ∧ State.reset.status = 0x00#8 ∧
  State.reset.pc = 0x0000#16 ∧ State.reset.mode = .idle ∧ State.reset.fault = none ∧
  State.reset.progLen = 0 ∧ ∀ addr, State.reset.memRead addr = .error (.outOfBoundsFetch addr)

/-- R63, R104 (the reset input: D9): the host's reset, from any mode, gives the creation state in every field the spec
names. -/
def Obligations.HostResetRestoresCreationState : Prop :=
  ∀ s : State, ∃ t, hostMove .reset s = .next t ∧
    t = { State.reset with freeCount := t.freeCount }

/-- R62, R32 (latch and modes: D2): `interpret` in IDLE or HALTED starts a run at offset 0 with the program latched, RUNNING
and without a fault, and keeps A, X and `status`. -/
def Obligations.InterpretStartsARun : Prop :=
  ∀ (program : List Byte) (s : State), s.mode = .idle ∨ s.mode = .halted →
    ∃ t, interpret program s = .next t ∧
      t.pc = 0x0000#16 ∧ t.mode = .running ∧ t.fault = none ∧
      t.progLen = program.length ∧
      (∀ (k : Nat) (b : Byte), program[k]? = some b → t.prog.read k = b) ∧
      t.regA = s.regA ∧ t.regX = s.regX ∧ t.status = s.status

/-- R63, R91, U7, U8 (decisions D4, D6): `interpret` is refused in FAULTED and, like a port access, while RUNNING; a refused
move changes nothing. -/
def Obligations.HostRefusals : Prop :=
  (∀ (program : List Byte) (s : State), s.mode = .faulted →
    interpret program s = .refused .faultedUntilReset ∧ move (.host (.interpret program)) s = s) ∧
  ∀ (h : HostMove) (s : State), s.mode = .running → h ≠ .reset →
    hostMove h s = .refused .hostDuringRun ∧ move (.host h) s = s

/-- R28: outside a run (IDLE or HALTED) each write of the state port sets its whole field, all 8 bits of `status` among
them, changes nothing else, and a read of the port gives the four fields; while RUNNING there is no read. -/
def Obligations.StatePortAccess : Prop :=
  (∀ s : State, s.mode = .idle ∨ s.mode = .halted →
    (∀ v, hostMove (.writeReg .a v) s = .next { s with regA := v }) ∧
    (∀ v, hostMove (.writeReg .x v) s = .next { s with regX := v }) ∧
    (∀ v, hostMove (.writeStatus v) s = .next { s with status := v }) ∧
    (∀ v, hostMove (.writePc v) s = .next { s with pc := v }) ∧
    portRead s = .ok { regA := s.regA, regX := s.regX, status := s.status, pc := s.pc }) ∧
  ∀ s : State, s.mode = .running → portRead s = .error .hostDuringRun

/-- R29: a pc written before a run has no effect on the run. -/
def Obligations.PreseededPcHasNoEffect : Prop :=
  ∀ (program : List Byte) (s t : State) (v : Word) (fuel : Nat),
    hostMove (.writePc v) s = .next t → s.mode ≠ .faulted →
    interpretRun fuel program t = interpretRun fuel program s

/-- R63 (the modes are the spec's own decision D2): the control state machine. Every step and host move leads to the mode
the table of R63 gives for the event: RUNNING, a raised fault leads to FAULTED, an executed `BRK` to HALTED, any other
step stays RUNNING; reset leads to IDLE; `interpret` leads from IDLE and HALTED to RUNNING and stays FAULTED; and nothing
else changes the mode. -/
def Obligations.ModeChangesFollowTheTable : Prop :=
  ∀ (m : Move) (s : State), controlTable s m (move m s).mode

/-- R63: the output signals say the mode: `busy` in RUNNING, `halted` in HALTED, `fault_valid` in FAULTED. -/
def Obligations.OutputSignalsShowTheMode : Prop :=
  ∀ s : State,
    (s.busy = true ↔ s.mode = .running) ∧ (s.haltedSignal = true ↔ s.mode = .halted) ∧
    (s.faultValid = true ↔ s.mode = .faulted)

/-! ### The invariant -/

/-- R31: the invariant holds at reset. Its clause that a fault is recorded exactly in mode FAULTED follows from R31; its
clauses that the cell list is in canonical form and below `L` are about the model's own representation of the program
buffer, a DESIGN CHOICE (log entry 6). -/
def Obligations.ResetMeetsTheInvariant : Prop :=
  State.reset.Inv

/-- Every step that answers a next state keeps the invariant: a fault recorded exactly in mode FAULTED (R27, R62, R87), and
the program's cell list in canonical form and below `L`, which is the model's own representation of the program buffer,
a DESIGN CHOICE (log entry 6). -/
def Obligations.StepKeepsTheInvariant : Prop :=
  ∀ s t : State, s.Inv → step s = .next t → t.Inv

/-- Every sequence of steps, faults, resets, starts of runs and port writes keeps the invariant, from every state that meets
it: a fault recorded exactly in mode FAULTED (R27, R62, R63, R87), and the program's cell list in canonical form and below
`L`, which is the model's own representation of the program buffer, a DESIGN CHOICE (log entry 6). -/
def Obligations.EveryMoveKeepsTheInvariant : Prop :=
  ∀ (ms : List Move) (s : State), s.Inv → (moves ms s).Inv
end

