-- ==== Sys2Proof/Laws/Decode.lean ====
section
/-! SUPPORT. The opcode map and the decoder, said once. -/

namespace Sys2Proof

@[simp] theorem decodeOpcode_brk : decodeOpcode 0x00#8 = .known .brk := rfl
@[simp] theorem decodeOpcode_lda : decodeOpcode 0xA9#8 = .known .lda := rfl
@[simp] theorem decodeOpcode_tax : decodeOpcode 0xAA#8 = .known .tax := rfl
@[simp] theorem decodeOpcode_inx : decodeOpcode 0xE8#8 = .known .inx := rfl

/-- Everything the opcode map can answer, with the byte it answers it for. -/
theorem decodeOpcode_cases (op : Byte) :
    (op = 0x00#8 ∧ decodeOpcode op = .known .brk) ∨
    (op = 0xA9#8 ∧ decodeOpcode op = .known .lda) ∨
    (op = 0xAA#8 ∧ decodeOpcode op = .known .tax) ∨
    (op = 0xE8#8 ∧ decodeOpcode op = .known .inx) ∨
    ((op ≠ 0x00#8 ∧ op ≠ 0xA9#8 ∧ op ≠ 0xAA#8 ∧ op ≠ 0xE8#8) ∧ decodeOpcode op = .undefined op) := by
  unfold decodeOpcode
  split
  · exact .inl ⟨‹_›, rfl⟩
  · split
    · exact .inr (.inl ⟨‹_›, rfl⟩)
    · split
      · exact .inr (.inr (.inl ⟨‹_›, rfl⟩))
      · split
        · exact .inr (.inr (.inr (.inl ⟨‹_›, rfl⟩)))
        · exact .inr (.inr (.inr (.inr ⟨⟨‹_›, ‹_›, ‹_›, ‹_›⟩, rfl⟩)))

/-- Only `LDA` looks at its operand; it fails as the operand's read fails, or takes the byte read. -/
theorem Kind.assemble_cases {ε : Type} (k : Kind) (operand : Except ε Byte) :
    (k = .brk ∧ k.assemble operand = .ok .brk) ∨
    (k = .tax ∧ k.assemble operand = .ok .tax) ∨
    (k = .inx ∧ k.assemble operand = .ok .inx) ∨
    (k = .lda ∧ ∃ e, operand = .error e ∧ k.assemble operand = .error e) ∨
    (k = .lda ∧ ∃ v, operand = .ok v ∧ k.assemble operand = .ok (.lda v)) := by
  cases k <;> cases operand <;> simp [Kind.assemble]

end Sys2Proof
end

