-- ==== Sys2Proof/Laws/Flags.lean ====
section
/-! SUPPORT. The bits of a merged status byte, said once. -/

namespace Sys2Proof.Machine

/-- Every bit of the merged status: bit 1 is the zero flag, bit 7 the negative flag, every other bit is kept. -/
theorem mergeFlags_bits (p : Byte) (f : Flags) :
    (mergeFlags p f).getLsbD 1 = f.zero ∧ (mergeFlags p f).getLsbD 7 = f.negative ∧
      ∀ k, k ≠ 1 → k ≠ 7 → (mergeFlags p f).getLsbD k = p.getLsbD k := by
  obtain ⟨z, n⟩ := f
  refine ⟨?_, ?_, ?_⟩
  · cases z <;> cases n <;> simp [mergeFlags]
  · cases z <;> cases n <;> simp [mergeFlags]
  · intro k h1 h7
    by_cases h8 : k < 8
    · have hk : k = 0 ∨ k = 2 ∨ k = 3 ∨ k = 4 ∨ k = 5 ∨ k = 6 := by omega
      rcases hk with rfl | rfl | rfl | rfl | rfl | rfl <;> cases z <;> cases n <;>
        simp [mergeFlags]
    · rw [BitVec.getLsbD_of_ge _ _ (by omega), BitVec.getLsbD_of_ge _ _ (by omega)]

end Sys2Proof.Machine
end

