-- ==== Sys2Proof/Laws/Memory.lean ====
section
/-! SUPPORT. The laws of the cell list: the latch and the write keep the canonical form, reads after the latch and after a
write, and equal reads make equal lists. -/

namespace Sys2Proof.Machine

theorem Memory.read_nil (a : Nat) : Memory.read [] a = Config.unlistedByte := rfl

theorem Memory.wfFrom_cons {lo k : Nat} {b : Byte} {m : Memory} :
    Memory.wfFrom lo ((k, b) :: m) = true ↔
      lo ≤ k ∧ b ≠ Config.unlistedByte ∧ Memory.wfFrom (k + 1) m = true := by
  simp [Memory.wfFrom, and_assoc]

theorem Memory.wfFrom_mono {m : Memory} {lo lo' : Nat} (h : lo' ≤ lo) (hm : Memory.wfFrom lo m = true) :
    Memory.wfFrom lo' m = true := by
  cases m with
  | nil => rfl
  | cons c m =>
    obtain ⟨k, b⟩ := c
    rw [Memory.wfFrom_cons] at *
    exact ⟨by omega, hm.2⟩

/-- Below the first listed offset everything reads as the unlisted byte. -/
theorem Memory.read_of_lt {m : Memory} {lo a : Nat} (hm : Memory.wfFrom lo m = true) (h : a < lo) :
    m.read a = Config.unlistedByte := by
  induction m generalizing lo with
  | nil => rfl
  | cons c m ih =>
    obtain ⟨k, b⟩ := c
    obtain ⟨h1, _, h2⟩ := Memory.wfFrom_cons.1 hm
    simp only [Memory.read]
    rw [if_neg (by omega), ih h2 (by omega)]

/-! ### The latch -/

theorem Memory.wfFrom_ofBytesFrom (n : Nat) (bs : List Byte) :
    Memory.wfFrom n (Memory.ofBytesFrom n bs) = true := by
  induction bs generalizing n with
  | nil => rfl
  | cons b bs ih =>
    simp only [Memory.ofBytesFrom]
    split
    · exact Memory.wfFrom_mono (Nat.le_succ n) (ih (n + 1))
    · exact Memory.wfFrom_cons.2 ⟨le_refl n, ‹_›, ih (n + 1)⟩

theorem Memory.wf_ofBytes (program : List Byte) : (Memory.ofBytes program).wf = true :=
  Memory.wfFrom_ofBytesFrom 0 program

theorem Memory.below_ofBytesFrom (n : Nat) (bs : List Byte) :
    (Memory.ofBytesFrom n bs).below (n + bs.length) = true := by
  induction bs generalizing n with
  | nil => rfl
  | cons b bs ih =>
    have h := ih (n + 1)
    rw [Nat.add_right_comm, Nat.add_assoc] at h
    simp only [Memory.ofBytesFrom, List.length_cons]
    split
    · exact h
    · simp only [Memory.below, Bool.and_eq_true, decide_eq_true_eq]
      exact ⟨by omega, h⟩

theorem Memory.below_ofBytes (program : List Byte) :
    (Memory.ofBytes program).below program.length = true := by
  simpa [Memory.ofBytes] using Memory.below_ofBytesFrom 0 program

theorem Memory.read_ofBytesFrom (n : Nat) (bs : List Byte) (i : Nat) :
    (Memory.ofBytesFrom n bs).read (n + i) = bs.getD i Config.unlistedByte := by
  induction bs generalizing n i with
  | nil => simp [Memory.ofBytesFrom, Memory.read]
  | cons b bs ih =>
    cases i with
    | zero =>
      simp only [Memory.ofBytesFrom, Nat.add_zero, List.getD_cons_zero]
      split
      · rename_i h
        rw [h, Memory.read_of_lt (Memory.wfFrom_ofBytesFrom (n + 1) bs) (Nat.lt_succ_self n)]
      · simp [Memory.read]
    | succ i =>
      have h := ih (n + 1) i
      rw [Nat.add_right_comm, Nat.add_assoc] at h
      simp only [Memory.ofBytesFrom, List.getD_cons_succ]
      split
      · exact h
      · simp only [Memory.read]
        rw [if_neg (by omega), h]

/-- Reading a latched program gives the program's byte; past its end, the unlisted byte. -/
theorem Memory.read_ofBytes (program : List Byte) (i : Nat) :
    (Memory.ofBytes program).read i = program.getD i Config.unlistedByte := by
  simpa [Memory.ofBytes] using Memory.read_ofBytesFrom 0 program i

/-! ### The write -/

theorem Memory.wfFrom_write {m : Memory} {lo a : Nat} {v : Byte} (h : lo ≤ a)
    (hm : Memory.wfFrom lo m = true) : Memory.wfFrom lo (m.write a v) = true := by
  induction m generalizing lo with
  | nil =>
    simp only [Memory.write]
    split
    · rfl
    · exact Memory.wfFrom_cons.2 ⟨h, ‹_›, rfl⟩
  | cons c m ih =>
    obtain ⟨k, b⟩ := c
    obtain ⟨h1, h2, h3⟩ := Memory.wfFrom_cons.1 hm
    simp only [Memory.write]
    split
    · split
      · exact hm
      · exact Memory.wfFrom_cons.2 ⟨h, ‹_›, Memory.wfFrom_cons.2 ⟨by omega, h2, h3⟩⟩
    · split
      · split
        · exact Memory.wfFrom_mono (by omega) h3
        · exact Memory.wfFrom_cons.2 ⟨h, ‹_›, Memory.wfFrom_mono (by omega) h3⟩
      · exact Memory.wfFrom_cons.2 ⟨h1, h2, ih (by omega) h3⟩

theorem Memory.wf_write {m : Memory} (a : Nat) (v : Byte) (hm : m.wf = true) :
    (m.write a v).wf = true :=
  Memory.wfFrom_write (Nat.zero_le a) hm

theorem Memory.below_mono {m : Memory} {n n' : Nat} (h : n ≤ n') (hm : m.below n = true) :
    m.below n' = true := by
  induction m with
  | nil => rfl
  | cons c m ih =>
    obtain ⟨k, b⟩ := c
    simp only [Memory.below, Bool.and_eq_true, decide_eq_true_eq] at *
    exact ⟨by omega, ih hm.2⟩

theorem Memory.below_write {m : Memory} {n a : Nat} {v : Byte} (h : a < n) (hm : m.below n = true) :
    (m.write a v).below n = true := by
  induction m with
  | nil =>
    simp only [Memory.write]
    split
    · rfl
    · simp [Memory.below, h]
  | cons c m ih =>
    obtain ⟨k, b⟩ := c
    have hm' := hm
    simp only [Memory.below, Bool.and_eq_true, decide_eq_true_eq] at hm'
    simp only [Memory.write]
    split
    · split
      · exact hm
      · simp [Memory.below, h, hm']
    · split
      · split
        · exact hm'.2
        · simp [Memory.below, h, hm']
      · simp [Memory.below, hm', ih hm'.2]

theorem Memory.read_write_from {m : Memory} {lo a : Nat} (v : Byte) (c : Nat)
    (hm : Memory.wfFrom lo m = true) :
    (m.write a v).read c = if c = a then v else m.read c := by
  induction m generalizing lo with
  | nil =>
    simp only [Memory.write]
    split
    · rename_i hv
      simp [Memory.read, hv]
    · simp [Memory.read, eq_comm]
  | cons p m ih =>
    obtain ⟨k, b⟩ := p
    obtain ⟨h1, h2, h3⟩ := Memory.wfFrom_cons.1 hm
    have hlow : c ≤ k → Memory.read m c = Config.unlistedByte := fun h =>
      Memory.read_of_lt h3 (Nat.lt_succ_of_le h)
    simp only [Memory.write]
    by_cases hak : a < k
    · rw [if_pos hak]
      by_cases hv : v = Config.unlistedByte
      · rw [if_pos hv]
        by_cases hc : c = a
        · subst hc
          rw [if_pos rfl, hv]
          simp only [Memory.read]
          rw [if_neg (by omega), hlow (by omega)]
        · rw [if_neg hc]
      · rw [if_neg hv, Memory.read]
        by_cases hc : c = a
        · rw [if_pos hc.symm, if_pos hc]
        · rw [if_neg (Ne.symm hc), if_neg hc]
    · rw [if_neg hak]
      by_cases hk : a = k
      · subst hk
        rw [if_pos rfl]
        by_cases hv : v = Config.unlistedByte
        · rw [if_pos hv]
          simp only [Memory.read]
          by_cases hc : c = a
          · rw [if_pos hc, hlow (by omega), hv]
          · rw [if_neg hc, if_neg (Ne.symm hc)]
        · rw [if_neg hv]
          simp only [Memory.read]
          by_cases hc : c = a
          · rw [if_pos hc.symm, if_pos hc]
          · rw [if_neg (Ne.symm hc), if_neg hc, if_neg (Ne.symm hc)]
      · rw [if_neg hk]
        simp only [Memory.read]
        by_cases hc : k = c
        · rw [if_pos hc, if_neg (by omega), if_pos hc]
        · rw [if_neg hc, if_neg hc, ih h3]

/-- Everything a write does: the offset written reads as the byte written, every other offset as before. -/
theorem Memory.read_write {m : Memory} (hm : m.wf = true) (a : Nat) (v : Byte) (c : Nat) :
    (m.write a v).read c = if c = a then v else m.read c :=
  Memory.read_write_from v c hm

/-! ### Canonical -/

theorem Memory.read_head_ne {k : Nat} {b : Byte} {m : Memory} {lo : Nat}
    (hm : Memory.wfFrom lo ((k, b) :: m) = true) :
    Memory.read ((k, b) :: m) k ≠ Config.unlistedByte := by
  simpa [Memory.read] using (Memory.wfFrom_cons.1 hm).2.1

theorem Memory.tail_reads {k : Nat} {b b' : Byte} {m m' : Memory}
    (hm : Memory.wfFrom (k + 1) m = true) (hm' : Memory.wfFrom (k + 1) m' = true)
    (h : ∀ a, Memory.read ((k, b) :: m) a = Memory.read ((k, b') :: m') a) (a : Nat) :
    m.read a = m'.read a := by
  by_cases ha : k = a
  · rw [Memory.read_of_lt hm (by omega), Memory.read_of_lt hm' (by omega)]
  · have := h a
    simpa only [Memory.read, if_neg ha] using this

end Sys2Proof.Machine
end

