-- ==== Sys2Proof/Laws/State.lean ====
section
/-! SUPPORT. One lemma per field per update of State: what each named operation leaves in each field. -/

namespace Sys2Proof.Machine

/-! ### writeReg -/

@[simp] theorem State.writeReg_status (s : State) (r : Reg) (v : Byte) :
    (s.writeReg r v).status = s.status := by cases r <;> rfl
@[simp] theorem State.writeReg_pc (s : State) (r : Reg) (v : Byte) :
    (s.writeReg r v).pc = s.pc := by cases r <;> rfl
@[simp] theorem State.writeReg_mode (s : State) (r : Reg) (v : Byte) :
    (s.writeReg r v).mode = s.mode := by cases r <;> rfl
@[simp] theorem State.writeReg_fault (s : State) (r : Reg) (v : Byte) :
    (s.writeReg r v).fault = s.fault := by cases r <;> rfl
@[simp] theorem State.writeReg_prog (s : State) (r : Reg) (v : Byte) :
    (s.writeReg r v).prog = s.prog := by cases r <;> rfl
@[simp] theorem State.writeReg_progLen (s : State) (r : Reg) (v : Byte) :
    (s.writeReg r v).progLen = s.progLen := by cases r <;> rfl
@[simp] theorem State.writeReg_freeCount (s : State) (r : Reg) (v : Byte) :
    (s.writeReg r v).freeCount = s.freeCount := by cases r <;> rfl

@[simp] theorem State.writeReg_a_regA (s : State) (v : Byte) : (s.writeReg .a v).regA = v := rfl
@[simp] theorem State.writeReg_a_regX (s : State) (v : Byte) : (s.writeReg .a v).regX = s.regX := rfl
@[simp] theorem State.writeReg_x_regA (s : State) (v : Byte) : (s.writeReg .x v).regA = s.regA := rfl
@[simp] theorem State.writeReg_x_regX (s : State) (v : Byte) : (s.writeReg .x v).regX = v := rfl
@[simp] theorem State.readReg_a (s : State) : s.readReg .a = s.regA := rfl
@[simp] theorem State.readReg_x (s : State) : s.readReg .x = s.regX := rfl
@[simp] theorem State.readReg_writeReg_same (s : State) (r : Reg) (v : Byte) :
    (s.writeReg r v).readReg r = v := by cases r <;> rfl

/-! ### advancePc -/

@[simp] theorem State.advancePc_regA (s : State) :
    (s.advancePc).regA = s.regA := rfl
@[simp] theorem State.advancePc_regX (s : State) :
    (s.advancePc).regX = s.regX := rfl
@[simp] theorem State.advancePc_status (s : State) :
    (s.advancePc).status = s.status := rfl
@[simp] theorem State.advancePc_pc (s : State) :
    (s.advancePc).pc = pcAfterByte s.pc := rfl
@[simp] theorem State.advancePc_mode (s : State) :
    (s.advancePc).mode = s.mode := rfl
@[simp] theorem State.advancePc_fault (s : State) :
    (s.advancePc).fault = s.fault := rfl
@[simp] theorem State.advancePc_prog (s : State) :
    (s.advancePc).prog = s.prog := rfl
@[simp] theorem State.advancePc_progLen (s : State) :
    (s.advancePc).progLen = s.progLen := rfl
@[simp] theorem State.advancePc_freeCount (s : State) :
    (s.advancePc).freeCount = s.freeCount := rfl

/-! ### halt -/

@[simp] theorem State.halt_regA (s : State) :
    (s.halt).regA = s.regA := rfl
@[simp] theorem State.halt_regX (s : State) :
    (s.halt).regX = s.regX := rfl
@[simp] theorem State.halt_status (s : State) :
    (s.halt).status = s.status := rfl
@[simp] theorem State.halt_pc (s : State) :
    (s.halt).pc = s.pc := rfl
@[simp] theorem State.halt_mode (s : State) :
    (s.halt).mode = .halted := rfl
@[simp] theorem State.halt_fault (s : State) :
    (s.halt).fault = s.fault := rfl
@[simp] theorem State.halt_prog (s : State) :
    (s.halt).prog = s.prog := rfl
@[simp] theorem State.halt_progLen (s : State) :
    (s.halt).progLen = s.progLen := rfl
@[simp] theorem State.halt_freeCount (s : State) :
    (s.halt).freeCount = s.freeCount := rfl

/-! ### takeFault: nothing is said of the four unspecified fields (R30) -/

@[simp] theorem State.takeFault_mode (s : State) (f : Fault) :
    (s.takeFault f).mode = .faulted := rfl
@[simp] theorem State.takeFault_fault (s : State) (f : Fault) :
    (s.takeFault f).fault = some f := rfl
@[simp] theorem State.takeFault_prog (s : State) (f : Fault) :
    (s.takeFault f).prog = s.prog := rfl
@[simp] theorem State.takeFault_progLen (s : State) (f : Fault) :
    (s.takeFault f).progLen = s.progLen := rfl
@[simp] theorem State.takeFault_freeCount (s : State) (f : Fault) :
    (s.takeFault f).freeCount = s.freeCount + 3 := rfl

/-! ### hostReset -/

@[simp] theorem State.hostReset_regA (s : State) :
    (s.hostReset).regA = 0x00#8 := rfl
@[simp] theorem State.hostReset_regX (s : State) :
    (s.hostReset).regX = 0x00#8 := rfl
@[simp] theorem State.hostReset_status (s : State) :
    (s.hostReset).status = 0x00#8 := rfl
@[simp] theorem State.hostReset_pc (s : State) :
    (s.hostReset).pc = 0x0000#16 := rfl
@[simp] theorem State.hostReset_mode (s : State) :
    (s.hostReset).mode = .idle := rfl
@[simp] theorem State.hostReset_fault (s : State) :
    (s.hostReset).fault = none := rfl
@[simp] theorem State.hostReset_prog (s : State) :
    (s.hostReset).prog = [] := rfl
@[simp] theorem State.hostReset_progLen (s : State) :
    (s.hostReset).progLen = 0 := rfl
@[simp] theorem State.hostReset_freeCount (s : State) :
    (s.hostReset).freeCount = s.freeCount := rfl

/-! ### setZN -/

@[simp] theorem State.setZN_regA (s : State) (v : Byte) :
    (s.setZN v).regA = s.regA := rfl
@[simp] theorem State.setZN_regX (s : State) (v : Byte) :
    (s.setZN v).regX = s.regX := rfl
@[simp] theorem State.setZN_status (s : State) (v : Byte) :
    (s.setZN v).status = mergeFlags s.status (flagsOf v) := rfl
@[simp] theorem State.setZN_pc (s : State) (v : Byte) :
    (s.setZN v).pc = s.pc := rfl
@[simp] theorem State.setZN_mode (s : State) (v : Byte) :
    (s.setZN v).mode = s.mode := rfl
@[simp] theorem State.setZN_fault (s : State) (v : Byte) :
    (s.setZN v).fault = s.fault := rfl
@[simp] theorem State.setZN_prog (s : State) (v : Byte) :
    (s.setZN v).prog = s.prog := rfl
@[simp] theorem State.setZN_progLen (s : State) (v : Byte) :
    (s.setZN v).progLen = s.progLen := rfl
@[simp] theorem State.setZN_freeCount (s : State) (v : Byte) :
    (s.setZN v).freeCount = s.freeCount := rfl

/-! ### writeResult -/

@[simp] theorem State.writeResult_status (s : State) (r : Reg) (v : Byte) :
    (s.writeResult r v).status = mergeFlags s.status (flagsOf v) := by cases r <;> rfl
@[simp] theorem State.writeResult_pc (s : State) (r : Reg) (v : Byte) :
    (s.writeResult r v).pc = s.pc := by cases r <;> rfl
@[simp] theorem State.writeResult_mode (s : State) (r : Reg) (v : Byte) :
    (s.writeResult r v).mode = s.mode := by cases r <;> rfl
@[simp] theorem State.writeResult_fault (s : State) (r : Reg) (v : Byte) :
    (s.writeResult r v).fault = s.fault := by cases r <;> rfl
@[simp] theorem State.writeResult_prog (s : State) (r : Reg) (v : Byte) :
    (s.writeResult r v).prog = s.prog := by cases r <;> rfl
@[simp] theorem State.writeResult_progLen (s : State) (r : Reg) (v : Byte) :
    (s.writeResult r v).progLen = s.progLen := by cases r <;> rfl
@[simp] theorem State.writeResult_freeCount (s : State) (r : Reg) (v : Byte) :
    (s.writeResult r v).freeCount = s.freeCount := by cases r <;> rfl
@[simp] theorem State.writeResult_a_regA (s : State) (v : Byte) : (s.writeResult .a v).regA = v := rfl
@[simp] theorem State.writeResult_a_regX (s : State) (v : Byte) : (s.writeResult .a v).regX = s.regX := rfl
@[simp] theorem State.writeResult_x_regA (s : State) (v : Byte) : (s.writeResult .x v).regA = s.regA := rfl
@[simp] theorem State.writeResult_x_regX (s : State) (v : Byte) : (s.writeResult .x v).regX = v := rfl

/-! ### startRun -/

@[simp] theorem State.startRun_regA (s : State) (program : List Byte) :
    (s.startRun program).regA = s.regA := rfl
@[simp] theorem State.startRun_regX (s : State) (program : List Byte) :
    (s.startRun program).regX = s.regX := rfl
@[simp] theorem State.startRun_status (s : State) (program : List Byte) :
    (s.startRun program).status = s.status := rfl
@[simp] theorem State.startRun_pc (s : State) (program : List Byte) :
    (s.startRun program).pc = Config.entryPoint := rfl
@[simp] theorem State.startRun_mode (s : State) (program : List Byte) :
    (s.startRun program).mode = .running := rfl
@[simp] theorem State.startRun_fault (s : State) (program : List Byte) :
    (s.startRun program).fault = none := rfl
@[simp] theorem State.startRun_prog (s : State) (program : List Byte) :
    (s.startRun program).prog = Memory.ofBytes program := rfl
@[simp] theorem State.startRun_progLen (s : State) (program : List Byte) :
    (s.startRun program).progLen = program.length := rfl
@[simp] theorem State.startRun_freeCount (s : State) (program : List Byte) :
    (s.startRun program).freeCount = s.freeCount := rfl

/-! ### placeCode -/

@[simp] theorem State.placeCode_regA (s : State) (b0 b1 : Byte) :
    (s.placeCode b0 b1).regA = s.regA := rfl
@[simp] theorem State.placeCode_regX (s : State) (b0 b1 : Byte) :
    (s.placeCode b0 b1).regX = s.regX := rfl
@[simp] theorem State.placeCode_status (s : State) (b0 b1 : Byte) :
    (s.placeCode b0 b1).status = s.status := rfl
@[simp] theorem State.placeCode_pc (s : State) (b0 b1 : Byte) :
    (s.placeCode b0 b1).pc = s.pc := rfl
@[simp] theorem State.placeCode_mode (s : State) (b0 b1 : Byte) :
    (s.placeCode b0 b1).mode = .running := rfl
@[simp] theorem State.placeCode_fault (s : State) (b0 b1 : Byte) :
    (s.placeCode b0 b1).fault = none := rfl
@[simp] theorem State.placeCode_prog (s : State) (b0 b1 : Byte) :
    (s.placeCode b0 b1).prog = (s.prog.write s.pc.toNat b0).write (pcAfterByte s.pc).toNat b1 := rfl
@[simp] theorem State.placeCode_progLen (s : State) (b0 b1 : Byte) :
    (s.placeCode b0 b1).progLen = max s.progLen (max (s.pc.toNat + 1) ((pcAfterByte s.pc).toNat + 1)) := rfl
@[simp] theorem State.placeCode_freeCount (s : State) (b0 b1 : Byte) :
    (s.placeCode b0 b1).freeCount = s.freeCount := rfl

end Sys2Proof.Machine
end

