-- ==== Sys2Proof/Laws/HostPort.lean ====
section
/-! SUPPORT. What the host's moves can do, said once, and that the operations on the program buffer keep its form. -/

namespace Sys2Proof.Machine

/-- Everything `interpret` can do. -/
theorem interpret_cases (program : List Byte) (s : State) :
    ((s.mode = .idle ∨ s.mode = .halted) ∧ interpret program s = .next (s.startRun program)) ∨
    (s.mode = .running ∧ interpret program s = .refused .hostDuringRun) ∨
    (s.mode = .faulted ∧ interpret program s = .refused .faultedUntilReset) := by
  unfold interpret
  cases s.mode <;> simp

/-- Everything a write through the state port can do. -/
theorem portWrite_cases (write : State → State) (s : State) :
    (s.mode ≠ .running ∧ portWrite write s = .next (write s)) ∨
    (s.mode = .running ∧ portWrite write s = .refused .hostDuringRun) := by
  unfold portWrite
  cases s.mode <;> simp

/-- The latched program is in canonical form and lies below `L`. -/
theorem startRun_prog_form (s : State) (program : List Byte) :
    (s.startRun program).prog.wf = true ∧
      (s.startRun program).prog.below (s.startRun program).progLen = true :=
  ⟨Memory.wf_ofBytes program, Memory.below_ofBytes program⟩

/-- Laying code into the buffer keeps its form. -/
theorem placeCode_prog_form {s : State} (b0 b1 : Byte) (hw : s.prog.wf = true)
    (hb : s.prog.below s.progLen = true) :
    (s.placeCode b0 b1).prog.wf = true ∧
      (s.placeCode b0 b1).prog.below (s.placeCode b0 b1).progLen = true := by
  refine ⟨Memory.wf_write _ _ (Memory.wf_write _ _ hw), ?_⟩
  simp only [State.placeCode_prog, State.placeCode_progLen]
  exact Memory.below_write (by omega)
    (Memory.below_write (by omega) (Memory.below_mono (by omega) hb))

end Sys2Proof.Machine
end

