-- ==== Sys2Proof/Laws/PerInstr.lean ====
section
/-! SUPPORT. Statements made per instruction, about its encoding. -/

/-- The code of an instruction is well-formed code of the length its opcode tells (R48, R53). -/
def Sys2Proof.Laws.CodeForm.Statement (i : Sys2Proof.Instr) : Prop :=
  Sys2Proof.codeWellFormed (Sys2Proof.encode i) = true ∧
    (Sys2Proof.encode i).length = if (Sys2Proof.encode i).head? = some 0xA9#8 then 2 else 1

theorem Sys2Proof.Laws.CodeForm.brk : Statement .brk := ⟨rfl, rfl⟩
theorem Sys2Proof.Laws.CodeForm.lda (imm8 : Byte) : Statement (.lda imm8) := ⟨rfl, rfl⟩
theorem Sys2Proof.Laws.CodeForm.tax : Statement .tax := ⟨rfl, rfl⟩
theorem Sys2Proof.Laws.CodeForm.inx : Statement .inx := ⟨rfl, rfl⟩
end

