-- ==== Sys2Proof/Laws/Step.lean ====
section
/-! SUPPORT. What the program read, the fetch and one step can do, said once; later proofs cite these instead of unfolding. -/

namespace Sys2Proof.Machine

theorem State.memRead_in {s : State} {addr : Word} (h : addr.toNat < s.progLen) :
    s.memRead addr = .ok (s.prog.read addr.toNat) := by
  simp [State.memRead, Nat.not_le.2 h]

theorem State.memRead_out {s : State} {addr : Word} (h : s.progLen ≤ addr.toNat) :
    s.memRead addr = .error (.outOfBoundsFetch addr) := by
  simp [State.memRead, h]

/-- Everything a fetch can answer, each with the reads that lead to it. -/
theorem State.fetch_cases (s : State) :
    (∃ f, s.opcodeAtPc = .error f ∧ s.fetch = .error f) ∨
    (∃ op, s.opcodeAtPc = .ok op ∧ decodeOpcode op = .undefined op ∧
      s.fetch = .error (.unimplementedOpcode op)) ∨
    (s.opcodeAtPc = .ok 0x00#8 ∧ s.fetch = .ok .brk) ∨
    (s.opcodeAtPc = .ok 0xAA#8 ∧ s.fetch = .ok .tax) ∨
    (s.opcodeAtPc = .ok 0xE8#8 ∧ s.fetch = .ok .inx) ∨
    (s.opcodeAtPc = .ok 0xA9#8 ∧ ∃ f, s.immediateAtPc = .error f ∧ s.fetch = .error f) ∨
    (s.opcodeAtPc = .ok 0xA9#8 ∧ ∃ v, s.immediateAtPc = .ok v ∧ s.fetch = .ok (.lda v)) := by
  cases hop : s.opcodeAtPc with
  | error f => exact .inl ⟨f, rfl, by simp [State.fetch, hop]⟩
  | ok op =>
    obtain ⟨rfl, h⟩ | ⟨rfl, h⟩ | ⟨rfl, h⟩ | ⟨rfl, h⟩ | ⟨-, h⟩ := decodeOpcode_cases op
    · exact .inr (.inr (.inl ⟨rfl, by simp [State.fetch, hop, Kind.assemble]⟩))
    · cases him : s.immediateAtPc with
      | error f =>
        exact .inr (.inr (.inr (.inr (.inr (.inl ⟨rfl, f, rfl, by
          simp [State.fetch, hop, him, Kind.assemble]⟩)))))
      | ok v =>
        exact .inr (.inr (.inr (.inr (.inr (.inr ⟨rfl, v, rfl, by
          simp [State.fetch, hop, him, Kind.assemble]⟩)))))
    · exact .inr (.inr (.inr (.inl ⟨rfl, by simp [State.fetch, hop, Kind.assemble]⟩)))
    · exact .inr (.inr (.inr (.inr (.inl ⟨rfl, by simp [State.fetch, hop, Kind.assemble]⟩))))
    · exact .inr (.inl ⟨op, rfl, h, by simp [State.fetch, hop, h]⟩)

theorem step_fault {s : State} {f : Fault} (hm : s.mode = .running) (hf : s.fetch = .error f) :
    step s = .fault f := by
  simp [step, hm, hf]

theorem step_exec {s : State} {i : Instr} (hm : s.mode = .running) (hf : s.fetch = .ok i) :
    step s = exec i s := by
  simp [step, hm, hf]

theorem step_not_running {s : State} (hm : s.mode ≠ .running) : step s = .refused .notRunning := by
  unfold step
  split
  · exact absurd ‹_› hm
  all_goals rfl

/-- Every meaning answers a next state. -/
theorem exec_answers_next (i : Instr) (s : State) : ∃ t, exec i s = .next t := by
  cases i <;> exact ⟨_, rfl⟩

/-- What any meaning leaves alone: the latched program, the fault record, the free-value counter. -/
theorem exec_keeps_control {i : Instr} {s t : State} (h : exec i s = .next t) :
    t.prog = s.prog ∧ t.progLen = s.progLen ∧ t.fault = s.fault ∧ t.freeCount = s.freeCount := by
  cases i <;> cases h <;> simp

/-- Everything a step can do: it is refused outside RUNNING; RUNNING, it answers the fault of its fetch or runs the
fetched instruction, which answers a next state. -/
theorem step_cases (s : State) :
    (s.mode ≠ .running ∧ step s = .refused .notRunning) ∨
    (s.mode = .running ∧ ∃ f, s.fetch = .error f ∧ step s = .fault f) ∨
    (s.mode = .running ∧ ∃ i t, s.fetch = .ok i ∧ exec i s = .next t ∧ step s = .next t) := by
  by_cases hm : s.mode = .running
  · cases hf : s.fetch with
    | error f => exact .inr (.inl ⟨hm, f, rfl, step_fault hm hf⟩)
    | ok i =>
      obtain ⟨t, ht⟩ := exec_answers_next i s
      exact .inr (.inr ⟨hm, i, t, rfl, ht, by rw [step_exec hm hf, ht]⟩)
  · exact .inl ⟨hm, step_not_running hm⟩

/-- A step that answers a next state ran a fetched instruction in mode RUNNING. -/
theorem step_next {s t : State} (h : step s = .next t) :
    s.mode = .running ∧ ∃ i, s.fetch = .ok i ∧ exec i s = .next t := by
  obtain ⟨-, h'⟩ | ⟨-, f, -, h'⟩ | ⟨hm, i, u, hf, hu, h'⟩ := step_cases s
  · rw [h'] at h; cases h
  · rw [h'] at h; cases h
  · rw [h'] at h; cases h; exact ⟨hm, i, hf, hu⟩

end Sys2Proof.Machine
end

