-- ==== Sys2Proof/Tests/Slice0.lean ====
section
/-! SUPPORT. The model's own tests, their expected values taken from spec/95_test_vectors.md and the rules named, and for
every statement with hypotheses a concrete witness that meets them. -/

namespace Sys2Proof.Tests

open Sys2Proof Sys2Proof.Machine

/-- A core in a run of this code, with the host's values in A, X and status. -/
def running (code : List Byte) (pc : Word := 0) (a x p : Byte := 0) : State :=
  { State.reset with
    regA := a, regX := x, status := p, pc := pc, mode := .running
    prog := Memory.ofBytes code, progLen := code.length }

/-- What a step leaves in (A, X, P, pc, mode), if it answers a next state. -/
def afterStep (s : State) : Option (Byte × Byte × Byte × Word × Mode) :=
  (nextOf (step s)).map fun t => (t.regA, t.regX, t.status, t.pc, t.mode)

/-- The fault a step answers, if it does. -/
def faultOf (s : State) : Option Fault :=
  match step s with
  | .fault f => some f
  | .next _ => none
  | .refused _ => none

/-! ### Well-formedness smoke: each check refuses an ill-formed sequence -/

theorem test_code_empty_refused : codeWellFormed [] = false := by decide
theorem test_code_undefined_refused : codeWellFormed [0xFF#8] = false := by decide
theorem test_code_lone_lda_refused : codeWellFormed [0xA9#8] = false := by decide
theorem test_code_operand_on_tax_refused : codeWellFormed [0xAA#8, 0x00#8] = false := by decide
theorem test_code_too_long_refused : codeWellFormed [0xA9#8, 0x00#8, 0x00#8] = false := by decide
theorem test_every_instr_well_formed : Instr.wellFormed (.lda 0xFF#8) = true := by decide

/-! ### Decoding: words written out from R54 -/

theorem test_decode_brk : decode [0b00000000#8] = .ok (.brk, []) := by decide
theorem test_decode_lda : decode [0b10101001#8, 0b11000000#8] = .ok (.lda 0xC0#8, []) := by decide
theorem test_decode_tax : decode [0b10101010#8] = .ok (.tax, []) := by decide
theorem test_decode_inx : decode [0b11101000#8] = .ok (.inx, []) := by decide
theorem test_decode_lda_zero_operand :
    decode [0xA9#8, 0x00#8, 0xAA#8] = .ok (.lda 0x00#8, [0xAA#8]) := by decide
/-- 95_test_vectors.md 2.7 names these undefined neighbours. -/
theorem test_decode_undefined_neighbours :
    [0x01#8, 0xA8#8, 0xAB#8, 0xE9#8, 0xFF#8].map decodeOpcode =
      [.undefined 0x01#8, .undefined 0xA8#8, .undefined 0xAB#8, .undefined 0xE9#8,
        .undefined 0xFF#8] := by decide
theorem test_table_word_lda : decodeTableWord 16 0x05A9 = some (.lda 0x05#8) := by decide
theorem test_table_word_lda_short : decodeTableWord 8 0x05A9 = some (.lda 0x00#8) := by decide
theorem test_table_word_undefined : decodeTableWord 8 0xEA = none := by decide

/-! ### Flags: the table of 95_test_vectors.md 2.1, as (P before, r, P after) -/

theorem test_setZN_table :
    ([(0x00, 0x00, 0x02), (0x00, 0x80, 0x80), (0x00, 0x05, 0x00), (0xFF, 0x00, 0x7F),
      (0xFF, 0x80, 0xFD), (0xFF, 0x01, 0x7D), (0x82, 0x7F, 0x00), (0x02, 0xFF, 0x80),
      (0x41, 0x00, 0x43), (0x40, 0xC0, 0xC0), (0x7D, 0x7F, 0x7D),
      (0x80, 0x00, 0x02)] : List (Byte × Byte × Byte)).all
      (fun v => mergeFlags v.1 (flagsOf v.2.1) == v.2.2) = true := by decide

/-! ### The instructions: 95_test_vectors.md 2.2 to 2.5 -/

theorem test_lda_clears_flags_keeps_reserved :
    afterStep (running [0xA9, 0x7F, 0x00] 0 0 0 0xFF) =
      some (0x7F, 0x00, 0x7D, 0x0002, .running) := by decide
/-- Program 6 of 95_test_vectors.md: an `LDA` at 0xFFFF reads its operand at offset 0. -/
theorem test_lda_operand_wraps :
    afterStep { State.reset with
      mode := .running, pc := 0xFFFF, regX := 0xFD, prog := [(0, 0xA9), (0xFFFF, 0xA9)],
      progLen := 65536 } = some (0xA9, 0xFD, 0x80, 0x0001, .running) := by decide
theorem test_tax_keeps_bit_six :
    afterStep (running [0xAA, 0x00] 0 0x80 0 0x41) =
      some (0x80, 0x80, 0xC1, 0x0001, .running) := by decide
theorem test_tax_zero :
    afterStep (running [0xAA, 0x00] 0 0x00 0x12) =
      some (0x00, 0x00, 0x02, 0x0001, .running) := by decide
theorem test_inx_wraps :
    afterStep (running [0xE8, 0x00] 0 0 0xFF 0x41) =
      some (0x00, 0x00, 0x43, 0x0001, .running) := by decide
theorem test_inx_sets_negative :
    afterStep (running [0xE8, 0x00] 0 0 0x7F) =
      some (0x00, 0x80, 0x80, 0x0001, .running) := by decide
theorem test_brk_halts_and_keeps :
    afterStep (running [0x00, 0xFF] 0 0x12 0x34 0xFF) =
      some (0x12, 0x34, 0xFF, 0x0001, .halted) := by decide

/-! ### Faults: 95_test_vectors.md 2.2, 2.6 -/

theorem test_fault_empty : faultOf (running []) = some (.outOfBoundsFetch 0x0000) := by decide
theorem test_fault_missing_operand :
    faultOf (running [0xE8, 0xA9] 1) = some (.outOfBoundsFetch 0x0002) := by decide
theorem test_fault_undefined :
    faultOf (running [0xA2, 0x05, 0x00]) = some (.unimplementedOpcode 0xA2) := by decide
/-- Program 5: the record of 0xEA is `fault_kind` 2, `fault_info` 0x00EA (R86). -/
theorem test_fault_signals :
    (Fault.unimplementedOpcode 0xEA#8).kind = 2 ∧
      (Fault.unimplementedOpcode 0xEA#8).info = 0x00EA#16 := by decide

/-! ### The host and whole (short) runs: 95_test_vectors.md P5, 2.5 -/

theorem test_reset_is_idle : State.reset.mode = .idle ∧ nextOf (step State.reset) = none := by decide
theorem test_run_tax_from_preset_a :
    interpretRun 2 [0xAA, 0x00] { State.reset with regA := 0x0A } =
      .halted { regA := 0x0A, regX := 0x0A, status := 0x00, pc := 0x0002 } := by decide
theorem test_run_ignores_preset_pc :
    interpretRun 1 [0x00] { State.reset with regA := 0x12, regX := 0x34, status := 0xFF, pc := 0x9999 } =
      .halted { regA := 0x12, regX := 0x34, status := 0xFF, pc := 0x0001 } := by decide
theorem test_interpret_refused_when_faulted :
    interpretRun 5 [0x00] { State.reset with mode := .faulted } = .refused .faultedUntilReset := by decide
theorem test_budget_is_no_verdict : interpretRun 1 [0xE8, 0x00] State.reset = .noVerdict := by decide

/-! ### The loading interface -/

theorem test_withFetchWord_runs_from_reset :
    afterStep (State.reset.withFetchWord 16 0x80A9) =
      some (0x80, 0x00, 0x80, 0x0002, .running) := by decide

/-! ### Witnesses: for each statement with hypotheses, a state that meets them -/

theorem witness_MemReadReturnsStoredByte :
    (running [0x11, 0x22]).progLen ≤ (0x0002#16 : Word).toNat ∧
      (0x0001#16 : Word).toNat < (running [0x11, 0x22]).progLen ∧
      interpret [0x11, 0x22] State.reset = .next (State.reset.startRun [0x11, 0x22]) :=
  ⟨by decide, by decide, rfl⟩

/-- Two ways to the same bytes: a latch, and two writes of which the second is of the unlisted byte. -/
theorem witness_CanonicalMemoriesAreEqual :
    let m := Memory.ofBytes [0x11, 0x00]
    let m' := Memory.write (Memory.write [(1, 0x22#8)] 0 0x11) 1 0x00
    m.wf = true ∧ m'.wf = true ∧ ∀ a, m.read a = m'.read a :=
  ⟨by decide, by decide, fun _ => rfl⟩

theorem witness_ProgramIsImmutable :
    NoNewProgram [.core, .host (.writeStatus 0xFF), .host (.writePc 3)] := by
  simp [NoNewProgram]

/-- Programs of 65537 bytes that differ at offset 65536 only. -/
theorem witness_BytesPast64KNeverMatter :
    let s := { running [] with progLen := 65537 }
    (∀ a < 65536, Memory.read [(65536, 0x11#8)] a = s.prog.read a) ∧
      (∀ a < 65536, a < 65537 ↔ a < s.progLen) := by
  refine ⟨fun a h => ?_, fun a _ => Iff.rfl⟩
  simp only [Memory.read]
  rw [if_neg (by omega)]
  rfl

theorem witness_StepReadsOnlyItsInstruction :
    let s := running [0xA9, 0x05, 0x00]
    let s' := s.withProgram (Memory.ofBytes [0xA9, 0x05, 0xEA, 0xEA]) 4
    s'.memRead s.pc = s.memRead s.pc ∧ s.memRead s.pc = .ok 0xA9#8 ∧
      s'.memRead (s.pc + 1#16) = s.memRead (s.pc + 1#16) := by decide

theorem witness_ReservedBitsKeptAndFlagsExclusive :
    (∃ t, exec .brk (running [0x00] 0 0 0 0xFF) = .next t) ∧
      ∃ t, exec (.lda 0x80) (running [0xA9, 0x80] 0 0 0 0xFF) = .next t :=
  ⟨⟨_, rfl⟩, ⟨_, rfl⟩⟩

/-- After `LDA` the flags describe A, and a host write of X keeps that; after `TAX` they describe X. -/
theorem witness_FlagsDescribeTheResultRegister :
    describedAfterAll [.core, .core, .host (.writeReg .x 0x01)] (running [0xA9, 0x05, 0x00]) none = some .a ∧
      describedAfterAll [.core, .core] (running [0xA9, 0x05, 0xAA]) none = some .x := by decide

theorem witness_ReservedBitsSurviveRuns :
    NoStatusWrite [.core, .host (.interpret [0xE8, 0x00])] ∧
      (moves [.core, .host (.interpret [0xE8, 0x00])] (running [0x00] 0 0 0 0x7D)).mode ≠ .faulted ∧
      (running [0x00] 0 0 0 0x7D).mode ≠ .faulted :=
  ⟨by simp [NoStatusWrite], by decide, by decide⟩

/-- The operand at the last offset, the operand one past it, and the operand of an `LDA` at 0xFFFF. -/
theorem witness_LdaLoadsTheAccumulator :
    ((running [0xA9, 0x05]).AtOpcode 0xA9 ∧
      ((running [0xA9, 0x05]).pc + 1#16).toNat < (running [0xA9, 0x05]).progLen) ∧
    ((running [0xA9]).AtOpcode 0xA9 ∧
      (running [0xA9]).progLen ≤ ((running [0xA9]).pc + 1#16).toNat) ∧
    let s := { running [] with prog := [(0xFFFF, 0xA9#8)], progLen := 65536, pc := 0xFFFF }
    s.AtOpcode 0xA9 ∧ (s.pc + 1#16).toNat < s.progLen := by
  simp only [State.AtOpcode]; decide

theorem witness_TaxCopiesAToX : (running [0xAA]).AtOpcode 0xAA := by
  simp only [State.AtOpcode]; decide

theorem witness_InxIncrementsX : (running [0xE8] 0 0 0xFF).AtOpcode 0xE8 := by
  simp only [State.AtOpcode]; decide

theorem witness_BrkHalts : (running [0x00]).AtOpcode 0x00 := by
  simp only [State.AtOpcode]; decide

theorem witness_InstructionFrames :
    (∃ t, exec (.lda 0x01) (running []) = .next t ∧ t.regA ≠ 0x00 ∧ t.status = 0x00) ∧
      (∃ t, exec .inx (running []) = .next t ∧ t.regX ≠ 0x00) ∧
      (∃ t, exec .tax (running []) = .next t ∧ t.status ≠ 0x00) ∧
      ∃ t, exec .brk (running []) = .next t ∧ t.mode ≠ .running :=
  ⟨⟨_, rfl, by decide⟩, ⟨_, rfl, by decide⟩, ⟨_, rfl, by decide⟩, ⟨_, rfl, by decide⟩⟩

/-- `TAX` from states that share A only, `INX` from states that share X only, `LDA` and `BRK` from states that share
nothing. -/
theorem witness_InstructionsReadOnlyTheirRegister :
    let s := running [] 0 0x05 0x06 0xFF
    let u := running [] 7 0x05 0x09 0x00
    let v := running [] 7 0x02 0x06 0x00
    ((∃ t t', exec .tax s = .next t ∧ exec .tax u = .next t') ∧ s.regA = u.regA) ∧
      ((∃ t t', exec .inx s = .next t ∧ exec .inx v = .next t') ∧ s.regX = v.regX) ∧
      (∃ t t', exec (.lda 0x80) u = .next t ∧ exec (.lda 0x80) v = .next t') ∧
      ∃ t t', exec .brk u = .next t ∧ exec .brk v = .next t' :=
  ⟨⟨⟨_, _, rfl, rfl⟩, rfl⟩, ⟨⟨_, _, rfl, rfl⟩, rfl⟩, ⟨_, _, rfl, rfl⟩, ⟨_, _, rfl, rfl⟩⟩

theorem witness_StepRunsDecodedInstruction :
    (running [0xA9, 0x05]).mode = .running ∧
      decode (running [0xA9, 0x05]).codeAtPc = .ok (.lda 0x05, []) := by decide

/-- The code of `LDA #0x05` lies over the wrap, at offsets 0xFFFF and 0x0000. -/
theorem witness_StepRunsCodeAtPc :
    let s := { running [] with prog := [(0, 0x05#8), (0xFFFF, 0xA9#8)], progLen := 65536, pc := 0xFFFF }
    s.mode = .running ∧ ∀ (k : Nat) (b : Byte), (encode (.lda 0x05))[k]? = some b →
      (s.pc + BitVec.ofNat 16 k).toNat < s.progLen ∧
      s.prog.read (s.pc + BitVec.ofNat 16 k).toNat = b := by
  refine ⟨rfl, fun k b h => ?_⟩
  match k, h with
  | 0, h => cases h; decide
  | 1, h => cases h; decide

theorem witness_FetchWordIsRunNext :
    State.reset.prog.wf = true ∧ decodeTableWord 16 0x05A9 = some (.lda 0x05) := by decide

/-- One running state for each of the three faults, at the boundary, and one for no fault. -/
theorem witness_StepFaultsExactly :
    faultOf (running [0xE8] 1) = some (.outOfBoundsFetch 1) ∧
      faultOf (running [0x01]) = some (.unimplementedOpcode 0x01) ∧
      faultOf (running [0xA9]) = some (.outOfBoundsFetch 1) ∧
      (nextOf (step (running [0xA9, 0x00]))).isSome = true := by decide

theorem witness_UndefinedOpcodeFaults :
    (0xEA#8 : Byte) ∉ [0x00#8, 0xA9#8, 0xAA#8, 0xE8#8] ∧ (running [0xEA]).AtOpcode 0xEA := by
  simp only [State.AtOpcode]; decide

theorem witness_StepRefusedExactlyOutsideRunning :
    step State.reset = .refused .notRunning ∧ State.reset.mode ≠ .running := ⟨rfl, by decide⟩

/-- At the last offset, so that pc wraps. -/
theorem witness_StepAdvancesPc :
    let s := { running [] with prog := [(0xFFFF, 0xE8#8)], progLen := 65536, pc := 0xFFFF }
    (∃ t, step s = .next t ∧ t.pc = 0) ∧
      ∃ t, step (running [0xA9, 0x00]) = .next t ∧ t.pc = 2 :=
  ⟨⟨_, rfl, rfl⟩, ⟨_, rfl, rfl⟩⟩

theorem witness_OnlyBrkEndsARunNormally :
    (∃ t, step (running [0x00]) = .next t ∧ t.mode = .halted) ∧
      ∃ t, step (running [0xE8]) = .next t ∧ t.mode = .running :=
  ⟨⟨_, rfl, rfl⟩, ⟨_, rfl, rfl⟩⟩

/-- The last offset of a short program, and of one of 65536 bytes, where pc comes out as 0. -/
theorem witness_BrkAtTheLastOffsetHalts :
    ((running [0xE8, 0x00] 1).AtOpcode 0x00 ∧ (running [0xE8, 0x00] 1).pc.toNat + 1 = 2) ∧
      let s := { running [] with progLen := 65536, pc := 0xFFFF }
      s.AtOpcode 0x00 ∧ s.pc.toNat + 1 = s.progLen := by
  simp only [State.AtOpcode]; decide

/-- The longest program that must end, and the shortest. -/
theorem witness_ShortProgramsTerminate :
    (List.replicate 65535 (0xE8#8 : Byte)).length ≤ 65535 ∧ ([] : List Byte).length ≤ 65535 ∧
      State.reset.mode = .idle :=
  ⟨Nat.le_of_eq List.length_replicate, Nat.zero_le _, rfl⟩

theorem witness_AllInxDiverges :
    let s := State.reset.startRun (List.replicate 65536 0xE8#8)
    s.mode = .running ∧ 65536 ≤ s.progLen ∧ ∀ a < 65536, s.prog.read a = 0xE8#8 := by
  refine ⟨rfl, Nat.le_of_eq List.length_replicate.symm, fun a h => ?_⟩
  rw [State.startRun_prog, Memory.read_ofBytes, List.getD_eq_getElem?_getD,
    List.getElem?_replicate, if_pos h]
  rfl

theorem witness_BudgetDoesNotChangeTheVerdict :
    execute 2 (running [0xE8, 0x00]) ≠ .noVerdict ∧ 2 ≤ 7 := by decide

theorem witness_VerdictsAreReachedByTransitions :
    execute 1 (running [0x00]) = .halted { regA := 0, regX := 0, status := 0, pc := 1 } ∧
      execute 1 (running [0xFF]) = .faulted (.unimplementedOpcode 0xFF) := by decide

theorem witness_TaxAfterLdaSeesTheNewA :
    let s := running [0xA9, 0xC0, 0xAA]
    s.AtOpcode 0xA9 ∧ (s.pc + 1#16).toNat < s.progLen ∧ (s.pc + 2#16).toNat < s.progLen ∧
      s.prog.read (s.pc + 2#16).toNat = 0xAA#8 := by
  simp only [State.AtOpcode]; decide

theorem witness_EmptyProgramFaults :
    State.reset.mode = .idle ∧ (moves [.core] (running [0x00])).mode = .halted := by decide

/-- One running state for each RUNNING row of R63: a fault, `BRK`, and another instruction. -/
theorem witness_ModeChangesFollowTheTable :
    (step (running [0xFF]) = .fault (.unimplementedOpcode 0xFF)) ∧
      (running [0x00]).fetch = .ok .brk ∧
      (∃ t, step (running [0xE8]) = .next t) ∧ (running [0xE8]).fetch ≠ .ok .brk :=
  ⟨rfl, rfl, ⟨_, rfl⟩, by decide⟩

theorem witness_FaultIsRecorded :
    step (running [0xFF]) = .fault (.unimplementedOpcode 0xFF) := rfl

theorem witness_FaultSignals :
    step (running []) = .fault (.outOfBoundsFetch 0) ∧
      step (running [0xEA]) = .fault (.unimplementedOpcode 0xEA) ∧ State.reset.fault = none :=
  ⟨rfl, rfl, rfl⟩

theorem witness_FaultStaysUntilReset :
    (∀ m ∈ [Move.core, .host (.interpret [0x00]), .host (.writePc 0)], m ≠ .host .reset) ∧
      (move .core (running [])).mode = .faulted := by decide

theorem witness_InterpretStartsARun :
    State.reset.mode = .idle ∧ (moves [.core] (running [0x00])).mode = .halted ∧
      ([0xE8, 0x00] : List Byte)[1]? = some 0x00 := by decide

theorem witness_HostRefusals :
    (move .core (running [])).mode = .faulted ∧ (running [0xE8]).mode = .running ∧
      HostMove.interpret [0x00] ≠ .reset ∧ HostMove.writePc 0 ≠ .reset := by decide

theorem witness_StatePortAccess :
    State.reset.mode = .idle ∧ (moves [.core] (running [0x00])).mode = .halted ∧
      (running [0xE8]).mode = .running := by decide

theorem witness_PreseededPcHasNoEffect :
    (∃ t, hostMove (.writePc 0x9999) State.reset = .next t) ∧ State.reset.mode ≠ .faulted :=
  ⟨⟨_, rfl⟩, by decide⟩

theorem witness_StepKeepsTheInvariant :
    (State.reset.startRun [0xA9, 0x05, 0x00]).Inv ∧
      ∃ t, step (State.reset.startRun [0xA9, 0x05, 0x00]) = .next t :=
  ⟨⟨by decide, by decide, by decide⟩, ⟨_, rfl⟩⟩

theorem witness_EveryMoveKeepsTheInvariant : (running [0xA9, 0x00, 0xEA]).Inv :=
  ⟨by decide, by decide, by decide⟩

end Sys2Proof.Tests
end

/-! PROOFS. Family 00_scope: whole runs under a step budget, and machines that differ only in their program. -/

namespace Sys2Proof.Machine

/-! ### What one more unit of budget does to a run -/

theorem execute_zero (s : State) : execute 0 s = .noVerdict := rfl

theorem execute_succ_of_fault {s : State} {f : Fault} (h : step s = .fault f) (fuel : Nat) :
    execute (fuel + 1) s = .faulted f := by
  simp [execute, h]

theorem execute_succ_of_refused {s : State} {r : Refusal} (h : step s = .refused r) (fuel : Nat) :
    execute (fuel + 1) s = .refused r := by
  simp [execute, h]

theorem execute_succ_of_halted {s t : State} (h : step s = .next t) (ht : t.mode = .halted)
    (fuel : Nat) : execute (fuel + 1) s = .halted t.cpu := by
  simp [execute, h, ht]

theorem execute_succ_of_not_halted {s t : State} (h : step s = .next t) (ht : t.mode ≠ .halted)
    (fuel : Nat) : execute (fuel + 1) s = execute fuel t := by
  simp only [execute, h]
  split
  · exact absurd ‹_› ht
  all_goals rfl

/-- Either the first step already gives the verdict, the same under every budget, or the run goes on from a next state. -/
theorem execute_succ_cases (s : State) :
    (∃ v, ∀ fuel, execute (fuel + 1) s = v) ∨
    (∃ t, step s = .next t ∧ t.mode ≠ .halted ∧ ∀ fuel, execute (fuel + 1) s = execute fuel t) := by
  cases h : step s with
  | fault f => exact .inl ⟨_, execute_succ_of_fault h⟩
  | refused r => exact .inl ⟨_, execute_succ_of_refused h⟩
  | next t =>
    by_cases ht : t.mode = .halted
    · exact .inl ⟨_, execute_succ_of_halted h ht⟩
    · exact .inr ⟨t, rfl, ht, execute_succ_of_not_halted h ht⟩

/-- A verdict outlives every larger budget (D11). -/
theorem execute_eq_of_le {n m : Nat} {s : State} (hnm : n ≤ m) (hv : execute n s ≠ .noVerdict) :
    execute m s = execute n s := by
  induction n generalizing m s with
  | zero => exact absurd (execute_zero s) hv
  | succ n ih =>
    obtain ⟨m, rfl⟩ := Nat.exists_eq_add_of_le' (Nat.lt_of_lt_of_le n.succ_pos hnm)
    obtain ⟨v, h⟩ | ⟨t, -, -, h⟩ := execute_succ_cases s
    · rw [h, h]
    · rw [h] at hv
      rw [h, h, ih (Nat.le_of_succ_le_succ hnm) hv]

/-! ### The same machine with another program -/

section WithProgram

variable (s : State) (prog : Memory) (progLen : Nat)

@[simp] theorem State.withProgram_pc : (s.withProgram prog progLen).pc = s.pc := rfl
@[simp] theorem State.withProgram_mode : (s.withProgram prog progLen).mode = s.mode := rfl
@[simp] theorem State.withProgram_cpu : (s.withProgram prog progLen).cpu = s.cpu := rfl
@[simp] theorem State.withProgram_prog : (s.withProgram prog progLen).prog = prog := rfl
@[simp] theorem State.withProgram_progLen : (s.withProgram prog progLen).progLen = progLen := rfl

/-- No meaning looks at the program buffer. -/
theorem exec_withProgram (i : Instr) :
    exec i (s.withProgram prog progLen) = mapNext (·.withProgram prog progLen) (exec i s) := by
  cases i <;> rfl

variable {s prog progLen}

/-- The fetch looks at the opcode's byte, and for opcode 0xA9 alone at the byte after it (R53). -/
theorem State.fetch_withProgram
    (hop : (s.withProgram prog progLen).opcodeAtPc = s.opcodeAtPc)
    (him : s.opcodeAtPc = .ok 0xA9#8 →
      (s.withProgram prog progLen).immediateAtPc = s.immediateAtPc) :
    (s.withProgram prog progLen).fetch = s.fetch := by
  cases h : s.opcodeAtPc with
  | error f => simp [State.fetch, hop, h]
  | ok op =>
    obtain ⟨rfl, -⟩ | ⟨rfl, -⟩ | ⟨rfl, -⟩ | ⟨rfl, -⟩ | ⟨-, hu⟩ := decodeOpcode_cases op
    · simp [State.fetch, hop, h, Kind.assemble]
    · simp [State.fetch, hop, h, him h]
    · simp [State.fetch, hop, h, Kind.assemble]
    · simp [State.fetch, hop, h, Kind.assemble]
    · simp [State.fetch, hop, h, hu]

/-- A step looks at the program only through its fetch. -/
theorem step_withProgram (hf : (s.withProgram prog progLen).fetch = s.fetch) :
    step (s.withProgram prog progLen) = mapNext (·.withProgram prog progLen) (step s) := by
  obtain ⟨hm, h⟩ | ⟨hm, f, he, h⟩ | ⟨hm, i, t, hi, -, -⟩ := step_cases s
  · rw [h, step_not_running (by simpa using hm)]; rfl
  · rw [h, step_fault (by simpa using hm) (hf.trans he)]; rfl
  · rw [step_exec hm hi, step_exec (by simpa using hm) (hf.trans hi), exec_withProgram]

/-- An offset is 16 bits wide, so programs that agree below 65536 give the same program reads (R35, R41). -/
theorem State.memRead_withProgram (hread : ∀ a < 65536, prog.read a = s.prog.read a)
    (hlen : ∀ a < 65536, a < progLen ↔ a < s.progLen) (addr : Word) :
    (s.withProgram prog progLen).memRead addr = s.memRead addr := by
  have haddr : addr.toNat < 65536 := addr.isLt
  by_cases h : addr.toNat < s.progLen
  · rw [State.memRead_in h, State.memRead_in (by simpa using (hlen _ haddr).2 h)]
    simp [hread _ haddr]
  · have h' : ¬ addr.toNat < progLen := fun hlt => h ((hlen _ haddr).1 hlt)
    rw [State.memRead_out (Nat.not_lt.1 h), State.memRead_out (by simpa using h')]

/-- A run looks at the program only below 65536: the two machines step alike, and a step keeps the program, so they
still agree after it. -/
theorem execute_withProgram (hread : ∀ a < 65536, prog.read a = s.prog.read a)
    (hlen : ∀ a < 65536, a < progLen ↔ a < s.progLen) (fuel : Nat) :
    execute fuel (s.withProgram prog progLen) = execute fuel s := by
  induction fuel generalizing s with
  | zero => rfl
  | succ fuel ih =>
    have hmem := State.memRead_withProgram hread hlen
    have hfetch := State.fetch_withProgram (hmem s.pc) fun _ => hmem (pcAfterByte s.pc)
    have hstep := step_withProgram hfetch
    cases h : step s with
    | fault f =>
      rw [h] at hstep
      rw [execute_succ_of_fault h, execute_succ_of_fault hstep]
    | refused r =>
      rw [h] at hstep
      rw [execute_succ_of_refused h, execute_succ_of_refused hstep]
    | next t =>
      rw [h] at hstep
      by_cases ht : t.mode = .halted
      · rw [execute_succ_of_halted h ht, execute_succ_of_halted hstep ht, State.withProgram_cpu]
      · obtain ⟨-, i, -, hi⟩ := step_next h
        obtain ⟨hprog, hprogLen, -, -⟩ := exec_keeps_control hi
        rw [execute_succ_of_not_halted h ht, execute_succ_of_not_halted hstep ht,
          ih (by rwa [hprog]) (by rwa [hprogLen])]

end WithProgram

/-! ### The obligations -/

/-- Settles O9: an offset has 16 bits, so no run reads a byte past 64K. -/
theorem bytesPast64KNeverMatter : Obligations.BytesPast64KNeverMatter :=
  fun _ _ _ hread hlen fuel => execute_withProgram hread hlen fuel

/-- Settles O34, by induction on the smaller budget. -/
theorem budgetDoesNotChangeTheVerdict : Obligations.BudgetDoesNotChangeTheVerdict :=
  fun _ _ _ hnm hv => execute_eq_of_le hnm hv

end Sys2Proof.Machine

/-! PROOFS. Family 10_state: what each instruction reads and writes, what each transition keeps, the state port and the
invariant. -/

namespace Sys2Proof.Machine

/-! ### Reserved status bits and the flags -/

theorem SameReserved.refl (p : Byte) : SameReserved p p := fun _ _ => rfl

theorem SameReserved.trans {p q r : Byte} (hpq : SameReserved p q) (hqr : SameReserved q r) :
    SameReserved p r :=
  fun k hk => (hpq k hk).trans (hqr k hk)

theorem sameReserved_mergeFlags (p : Byte) (f : Flags) : SameReserved (mergeFlags p f) p := by
  intro k hk
  have hne : k ≠ 1 ∧ k ≠ 7 := by constructor <;> rintro rfl <;> simp [reservedBits] at hk
  exact (mergeFlags_bits p f).2.2 k hne.1 hne.2

theorem flagsDescribe_mergeFlags (p r : Byte) : FlagsDescribe (mergeFlags p (flagsOf r)) r :=
  ⟨(mergeFlags_bits p (flagsOf r)).1, (mergeFlags_bits p (flagsOf r)).2.1⟩

/-! ### What an instruction reads and writes -/

section Exec

variable {i : Instr} {s t : State}

/-- Two states with the same buffer hold the same program (R34). -/
theorem sameProgram_of_prog_eq (hprog : t.prog = s.prog) (hlen : t.progLen = s.progLen) :
    SameProgram s t :=
  ⟨hlen, fun _ => by rw [hprog]⟩

theorem exec_sameProgram (h : exec i s = .next t) : SameProgram s t :=
  have ⟨hprog, hlen, _, _⟩ := exec_keeps_control h
  sameProgram_of_prog_eq hprog hlen

/-- `BRK` halts and keeps `status`; the other meanings keep the mode and merge the flags of some byte (R67, R76, R85). -/
theorem exec_mode_status (h : exec i s = .next t) :
    (i = .brk ∧ t.mode = .halted ∧ t.status = s.status) ∨
    (i ≠ .brk ∧ t.mode = s.mode ∧ ∃ r, t.status = mergeFlags s.status (flagsOf r)) := by
  cases i <;> cases h
  case brk => exact .inl ⟨rfl, rfl, rfl⟩
  all_goals exact .inr ⟨by simp, by simp, _, by simp; rfl⟩

/-- No meaning leads to FAULTED: a fault is raised by the fetch. -/
theorem exec_mode_ne_faulted (hm : s.mode = .running) (h : exec i s = .next t) :
    t.mode ≠ .faulted := by
  obtain ⟨-, ht, -⟩ | ⟨-, ht, -⟩ := exec_mode_status h
  · simp [ht]
  · simp [ht, hm]

theorem exec_sameReserved (h : exec i s = .next t) : SameReserved t.status s.status := by
  obtain ⟨-, -, ht⟩ | ⟨-, -, r, ht⟩ := exec_mode_status h
  · exact ht ▸ SameReserved.refl _
  · exact ht ▸ sameReserved_mergeFlags _ _

/-- A is written by `LDA` only (R14). -/
theorem exec_regA (h : exec i s = .next t) : t.regA = s.regA ∨ ∃ v, i = .lda v := by
  cases i <;> cases h
  case lda v => exact .inr ⟨v, rfl⟩
  all_goals exact .inl rfl

/-- X is written by `TAX` and `INX` only (R15). -/
theorem exec_regX (h : exec i s = .next t) : t.regX = s.regX ∨ i = .tax ∨ i = .inx := by
  cases i <;> cases h
  case tax => exact .inr (.inl rfl)
  case inx => exact .inr (.inr rfl)
  all_goals exact .inl rfl

/-- After a flag-affecting instruction the flags describe its result register (R76). -/
theorem exec_flagsDescribe {r : Reg} (h : exec i s = .next t) (hr : resultRegOf i = some r) :
    FlagsDescribe t.status (t.readReg r) := by
  cases i <;> cases hr <;> cases h <;> exact flagsDescribe_mergeFlags _ _

/-- The byte left in the result register depends on A for `TAX` only and on X for `INX` only (R14, R15). -/
theorem exec_result_congr {s' t' : State} {r : Reg} (h : exec i s = .next t)
    (h' : exec i s' = .next t') (hA : i = .tax → s.regA = s'.regA)
    (hX : i = .inx → s.regX = s'.regX) (hr : resultRegOf i = some r) :
    t.readReg r = t'.readReg r := by
  cases i <;> cases hr <;> cases h <;> cases h'
  case lda => rfl
  case tax => exact hA rfl
  case inx => exact congrArg (· + 1#8) (hX rfl)

/-- The program counter advances once for each byte of the instruction (R18, R69). -/
theorem exec_pc (h : exec i s = .next t) : t.pc = s.pc + BitVec.ofNat 16 (encode i).length := by
  cases i <;> cases h
  case lda => exact BitVec.add_assoc s.pc 1#16 1#16
  all_goals simp [pcAfterByte, encode]

end Exec

/-! ### The opcode a fetched instruction was read from -/

theorem State.read_of_memRead {s : State} {addr : Word} {b : Byte} (h : s.memRead addr = .ok b) :
    s.prog.read addr.toNat = b := by
  by_cases hin : addr.toNat < s.progLen
  · rw [State.memRead_in hin] at h
    exact Except.ok.inj h
  · rw [State.memRead_out (Nat.not_lt.1 hin)] at h
    cases h

/-- The byte at the program counter is the first byte of the fetched instruction's code. -/
theorem State.encode_head_of_fetch {s : State} {i : Instr} (h : s.fetch = .ok i) :
    (encode i).head? = some (s.prog.read s.pc.toNat) := by
  obtain ⟨f, -, hf⟩ | ⟨op, -, -, hf⟩ | ⟨hop, hf⟩ | ⟨hop, hf⟩ | ⟨hop, hf⟩ | ⟨-, f, -, hf⟩ |
    ⟨hop, v, -, hf⟩ := s.fetch_cases <;> rw [hf] at h <;> cases h
  all_goals rw [State.read_of_memRead hop]; rfl

/-- The opcode alone tells the length (R53). -/
theorem encode_length (i : Instr) :
    (encode i).length = if (encode i).head? = some 0xA9#8 then 2 else 1 := by
  cases i
  case brk => exact Laws.CodeForm.brk.2
  case lda v => exact (Laws.CodeForm.lda v).2
  case tax => exact Laws.CodeForm.tax.2
  case inx => exact Laws.CodeForm.inx.2

/-! ### Transitions -/

/-- Everything a step does to the machine as a whole. -/
theorem move_core_cases (s : State) :
    (s.mode ≠ .running ∧ move .core s = s) ∨
    (s.mode = .running ∧ ∃ f, step s = .fault f ∧ move .core s = s.takeFault f) ∨
    (s.mode = .running ∧ ∃ i, s.fetch = .ok i ∧ exec i s = .next (move .core s)) := by
  obtain ⟨hm, h⟩ | ⟨hm, f, -, h⟩ | ⟨hm, i, t, hf, ht, h⟩ := step_cases s
  · exact .inl ⟨hm, by simp [move, h, settle]⟩
  · exact .inr (.inl ⟨hm, f, h, by simp [move, h, settle]⟩)
  · exact .inr (.inr ⟨hm, i, hf, by simp [move, h, settle, ht]⟩)

/-- Everything a call of `interpret` does to the machine as a whole. -/
theorem move_interpret_cases (program : List Byte) (s : State) :
    ((s.mode = .idle ∨ s.mode = .halted) ∧
      move (.host (.interpret program)) s = s.startRun program) ∨
    ((s.mode = .running ∨ s.mode = .faulted) ∧ move (.host (.interpret program)) s = s) := by
  obtain ⟨hm, h⟩ | ⟨hm, h⟩ | ⟨hm, h⟩ := interpret_cases program s
  · exact .inl ⟨hm, by simp [move, hostMove, h, settle]⟩
  · exact .inr ⟨.inl hm, by simp [move, hostMove, h, settle]⟩
  · exact .inr ⟨.inr hm, by simp [move, hostMove, h, settle]⟩

/-! The three host moves that are writes through the state port (R28). -/

theorem hostMove_writeReg (r : Reg) (v : Byte) (s : State) :
    hostMove (.writeReg r v) s = portWrite (·.writeReg r v) s := rfl

theorem hostMove_writeStatus (v : Byte) (s : State) :
    hostMove (.writeStatus v) s = portWrite ({ · with status := v }) s := rfl

theorem hostMove_writePc (v : Word) (s : State) :
    hostMove (.writePc v) s = portWrite ({ · with pc := v }) s := rfl

/-- A port write is made whole or changes nothing: what holds of both states holds of the one it leaves. -/
theorem settle_portWrite {P : State → Prop} {write : State → State} {s : State}
    (hrefused : P s) (hwritten : P (write s)) : P (settle s (portWrite write s)) := by
  obtain ⟨-, h⟩ | ⟨-, h⟩ := portWrite_cases write s
  · rw [h]; exact hwritten
  · rw [h]; exact hrefused

/-- What every admitted transition keeps, every sequence of admitted transitions keeps. -/
theorem moves_induction {P : State → Prop} {Admitted : Move → Prop}
    (hmove : ∀ m s, Admitted m → P s → P (move m s)) {ms : List Move} {s : State}
    (hms : ∀ m ∈ ms, Admitted m) (hs : P s) : P (moves ms s) := by
  induction ms generalizing s with
  | nil => exact hs
  | cons m ms ih =>
    obtain ⟨hm, hms⟩ := List.forall_mem_cons.1 hms
    exact ih hms (hmove m s hm hs)

/-- A fault and its record stay through every transition but a reset (R91). -/
theorem move_of_faulted {m : Move} {s : State} (hm : m ≠ .host .reset) (hs : s.mode = .faulted) :
    (move m s).mode = .faulted ∧ (move m s).fault = s.fault := by
  match m with
  | .core =>
    obtain ⟨-, h⟩ | ⟨hrun, -⟩ | ⟨hrun, -⟩ := move_core_cases s
    · rw [h]; exact ⟨hs, rfl⟩
    all_goals simp [hs] at hrun
  | .host .reset => exact absurd rfl hm
  | .host (.interpret program) =>
    obtain ⟨hm, -⟩ | ⟨-, h⟩ := move_interpret_cases program s
    · simp [hs] at hm
    · rw [h]; exact ⟨hs, rfl⟩
  | .host (.writeReg _ _) | .host (.writeStatus _) | .host (.writePc _) =>
    simp only [move, hostMove_writeReg, hostMove_writeStatus, hostMove_writePc]
    exact settle_portWrite (P := fun t => t.mode = .faulted ∧ t.fault = s.fault)
      ⟨hs, rfl⟩ ⟨by simp [hs], by simp⟩

/-- One transition that is neither a reset nor a write of `status`, and that raises no fault, keeps the reserved
bits (R24). -/
theorem move_sameReserved {m : Move} {s : State}
    (hm : m ≠ .host .reset ∧ ∀ v, m ≠ .host (.writeStatus v)) (hf : (move m s).mode ≠ .faulted) :
    SameReserved (move m s).status s.status := by
  match m with
  | .core =>
    obtain ⟨-, h⟩ | ⟨-, f, -, h⟩ | ⟨-, i, -, h⟩ := move_core_cases s
    · rw [h]; exact SameReserved.refl _
    · rw [h] at hf; exact absurd rfl hf
    · exact exec_sameReserved h
  | .host .reset => exact absurd rfl hm.1
  | .host (.writeStatus v) => exact absurd rfl (hm.2 v)
  | .host (.interpret program) =>
    obtain ⟨-, h⟩ | ⟨-, h⟩ := move_interpret_cases program s <;> rw [h] <;>
      exact SameReserved.refl _
  | .host (.writeReg _ _) | .host (.writePc _) =>
    simp only [move, hostMove_writeReg, hostMove_writePc]
    exact settle_portWrite (P := fun t => SameReserved t.status s.status)
      (SameReserved.refl _) (by simpa using SameReserved.refl s.status)

/-! ### The invariant -/

/-- The invariant looks at the buffer, the mode and the fault record alone. -/
theorem State.Inv.of_control_eq {s t : State} (hs : s.Inv) (hprog : t.prog = s.prog)
    (hlen : t.progLen = s.progLen) (hmode : t.mode = s.mode) (hfault : t.fault = s.fault) :
    t.Inv where
  canonical := hprog ▸ hs.canonical
  inBuffer := hprog ▸ hlen ▸ hs.inBuffer
  faultedIffRecorded := by rw [hmode, hfault]; exact hs.faultedIffRecorded

theorem exec_keeps_inv {i : Instr} {s t : State} (hs : s.Inv) (hm : s.mode = .running)
    (h : exec i s = .next t) : t.Inv := by
  obtain ⟨hprog, hlen, hfault, -⟩ := exec_keeps_control h
  have hnone : s.fault.isSome ≠ true := fun hsome => by
    simpa [hm] using hs.faultedIffRecorded.2 hsome
  exact {
    canonical := hprog ▸ hs.canonical
    inBuffer := hprog ▸ hlen ▸ hs.inBuffer
    faultedIffRecorded := by
      rw [hfault]; exact iff_of_false (exec_mode_ne_faulted hm h) hnone }

theorem takeFault_keeps_inv {s : State} (hs : s.Inv) (f : Fault) : (s.takeFault f).Inv where
  canonical := hs.canonical
  inBuffer := hs.inBuffer
  faultedIffRecorded := by simp

theorem startRun_inv (s : State) (program : List Byte) : (s.startRun program).Inv where
  canonical := (startRun_prog_form s program).1
  inBuffer := (startRun_prog_form s program).2
  faultedIffRecorded := by simp

theorem hostReset_inv (s : State) : s.hostReset.Inv where
  canonical := rfl
  inBuffer := rfl
  faultedIffRecorded := by simp

theorem move_keeps_inv (m : Move) {s : State} (hs : s.Inv) : (move m s).Inv := by
  match m with
  | .core =>
    obtain ⟨-, h⟩ | ⟨-, f, -, h⟩ | ⟨hm, i, -, h⟩ := move_core_cases s
    · rwa [h]
    · rw [h]; exact takeFault_keeps_inv hs f
    · exact exec_keeps_inv hs hm h
  | .host .reset => exact hostReset_inv s
  | .host (.interpret program) =>
    obtain ⟨-, h⟩ | ⟨-, h⟩ := move_interpret_cases program s
    · rw [h]; exact startRun_inv s program
    · rwa [h]
  | .host (.writeReg _ _) | .host (.writeStatus _) | .host (.writePc _) =>
    simp only [move, hostMove_writeReg, hostMove_writeStatus, hostMove_writePc]
    exact settle_portWrite (P := State.Inv) hs (hs.of_control_eq (by simp) (by simp) (by simp) (by simp))

/-! ### The state port and the start of a run -/

theorem portWrite_of_not_running {s : State} (write : State → State) (hm : s.mode ≠ .running) :
    portWrite write s = .next (write s) := by
  obtain ⟨-, h⟩ | ⟨hr, -⟩ := portWrite_cases write s
  · exact h
  · exact absurd hr hm

/-- A write that answers a next state was made whole. -/
theorem portWrite_next {write : State → State} {s t : State} (h : portWrite write s = .next t) :
    t = write s := by
  obtain ⟨-, h'⟩ | ⟨-, h'⟩ := portWrite_cases write s <;> rw [h'] at h <;> cases h
  rfl

/-- Everything a read through the state port can answer (R28). -/
theorem portRead_cases (s : State) :
    (s.mode ≠ .running ∧ portRead s = .ok s.cpu) ∨
    (s.mode = .running ∧ portRead s = .error .hostDuringRun) := by
  unfold portRead
  cases s.mode <;> simp

/-- The start of a run writes pc, so what it held before is lost (R29, R62). -/
theorem interpret_set_pc (program : List Byte) (s : State) (v : Word) :
    interpret program { s with pc := v } = interpret program s := by
  unfold interpret
  cases s.mode <;> rfl

/-! ### The obligations -/

/-- Settles O50: a step that answers a next state ran an instruction in mode RUNNING. -/
theorem stepKeepsTheInvariant : Obligations.StepKeepsTheInvariant := by
  intro s t hs h
  obtain ⟨hm, i, -, hi⟩ := step_next h
  exact exec_keeps_inv hs hm hi

/-- Settles O51, by induction on the sequence of transitions. -/
theorem everyMoveKeepsTheInvariant : Obligations.EveryMoveKeepsTheInvariant :=
  fun _ _ hs =>
    moves_induction (Admitted := fun _ => True) (fun m _ _ => move_keeps_inv m) (by simp) hs

/-- Settles O15: a sequence that ends outside FAULTED was never in it, since only a reset leads out. -/
theorem reservedBitsSurviveRuns : Obligations.ReservedBitsSurviveRuns := by
  intro ms s hms hend _
  refine moves_induction (P := fun t => t.mode ≠ .faulted → SameReserved t.status s.status)
    (fun m t hm ht hmode => ?_) hms (fun _ => SameReserved.refl _) hend
  have hbefore : t.mode ≠ .faulted := fun h => hmode (move_of_faulted hm.1 h).1
  exact (move_sameReserved hm hmode).trans (ht hbefore)

/-- Settles O20, one field at a time. -/
theorem instructionFrames : Obligations.InstructionFrames := by
  intro i s t h
  obtain ⟨-, -, hfault, hfree⟩ := exec_keeps_control h
  refine ⟨(exec_regA h).resolve_left, (exec_regX h).resolve_left, ?_, ?_, hfault, hfree,
    exec_sameProgram h⟩
  · rintro hne rfl
    cases h
    exact hne rfl
  · obtain ⟨hi, -⟩ | ⟨-, hmode, -⟩ := exec_mode_status h
    · exact fun _ => hi
    · exact fun hne => absurd hmode hne

/-- Settles O21: the flags describe the result register, whose byte the shared register alone gives. -/
theorem instructionsReadOnlyTheirRegister : Obligations.InstructionsReadOnlyTheirRegister := by
  intro i s s' t t' h h' hA hX
  refine ⟨fun r hr => ?_, ?_⟩
  · have hreg := exec_result_congr h h' hA hX hr
    obtain ⟨hz, hn⟩ := exec_flagsDescribe h hr
    obtain ⟨hz', hn'⟩ := exec_flagsDescribe h' hr
    exact ⟨hreg, by rw [hz, hz', hreg], by rw [hn, hn', hreg]⟩
  · rw [exec_pc h, exec_pc h', BitVec.add_comm s.pc, BitVec.add_comm s'.pc,
      BitVec.add_sub_cancel, BitVec.add_sub_cancel]

/-- Settles O29: pc advances by the instruction's length, which the opcode at pc tells. -/
theorem stepAdvancesPc : Obligations.StepAdvancesPc := by
  intro s t h
  obtain ⟨-, i, hf, hi⟩ := step_next h
  have hlen := encode_length i
  simp only [State.encode_head_of_fetch hf, Option.some.injEq] at hlen
  rw [exec_pc hi, hlen, BitVec.toNat_add, BitVec.toNat_ofNat, Nat.add_mod_mod]

/-- Settles O41. -/
theorem resetState : Obligations.ResetState :=
  ⟨rfl, rfl, rfl, rfl, rfl, rfl, rfl, fun _ => State.memRead_out (Nat.zero_le _)⟩

/-- Settles O45. -/
theorem statePortAccess : Obligations.StatePortAccess := by
  refine ⟨fun s hs => ?_, fun s hs => ?_⟩
  · have hm : s.mode ≠ .running := by rcases hs with h | h <;> simp [h]
    simp only [hostMove_writeReg, hostMove_writeStatus, hostMove_writePc]
    refine ⟨fun _ => portWrite_of_not_running _ hm, fun _ => portWrite_of_not_running _ hm,
      fun _ => portWrite_of_not_running _ hm, fun _ => portWrite_of_not_running _ hm, ?_⟩
    obtain ⟨-, h⟩ | ⟨hr, -⟩ := portRead_cases s
    · exact h
    · exact absurd hr hm
  · obtain ⟨hm, -⟩ | ⟨-, h⟩ := portRead_cases s
    · exact absurd hs hm
    · exact h

/-- Settles O46: the two machines start the same run. -/
theorem preseededPcHasNoEffect : Obligations.PreseededPcHasNoEffect := by
  intro program s t v fuel ht _
  rw [hostMove_writePc] at ht
  simp only [portWrite_next ht, interpretRun, interpret_set_pc]

/-- Settles O49: the creation state is the one a reset gives before any fault. -/
theorem resetMeetsTheInvariant : Obligations.ResetMeetsTheInvariant :=
  hostReset_inv State.reset

end Sys2Proof.Machine

/-! PROOFS. Family 20_memory: the program read, the canonical form of the buffer, and what keeps the program. -/

namespace Sys2Proof.Machine

/-! ### The program read -/

theorem State.memRead_eq_ok_iff {s : State} {addr : Word} {b : Byte} :
    s.memRead addr = .ok b ↔ addr.toNat < s.progLen ∧ s.prog.read addr.toNat = b := by
  by_cases hin : addr.toNat < s.progLen
  · simp [State.memRead_in hin, hin]
  · simp [State.memRead_out (Nat.not_lt.1 hin), hin]

/-- A run that starts latches the program it was given (R62). -/
theorem interpret_next {program : List Byte} {s t : State} (h : interpret program s = .next t) :
    t = s.startRun program := by
  obtain ⟨-, h'⟩ | ⟨-, h'⟩ | ⟨-, h'⟩ := interpret_cases program s <;> rw [h'] at h <;> cases h
  rfl

/-- The core reads the latched program: each byte at its own offset, and none past its end (R34, R35). -/
theorem State.memRead_startRun_eq_ok_iff {program : List Byte} {s : State} {addr : Word} {b : Byte} :
    (s.startRun program).memRead addr = .ok b ↔ program[addr.toNat]? = some b := by
  rw [State.memRead_eq_ok_iff, List.getElem?_eq_some_iff, State.startRun_prog,
    State.startRun_progLen, Memory.read_ofBytes, ← exists_prop]
  exact exists_congr fun hin => by rw [List.getD_eq_getElem _ _ hin]

/-! ### The canonical form -/

/-- Only a listed offset reads as anything but the unlisted byte. -/
theorem Memory.le_of_read_ne {m : Memory} {lo a : Nat} (hm : Memory.wfFrom lo m = true)
    (ha : m.read a ≠ Config.unlistedByte) : lo ≤ a :=
  Nat.not_lt.1 fun hlt => ha (Memory.read_of_lt hm hlt)

/-- Of two canonical lists that read alike, the second begins no later than the first. -/
theorem Memory.head_le_of_read_eq {lo k k' : Nat} {b b' : Byte} {m m' : Memory}
    (hm : Memory.wfFrom lo ((k, b) :: m) = true) (hm' : Memory.wfFrom lo ((k', b') :: m') = true)
    (hread : ∀ a, Memory.read ((k, b) :: m) a = Memory.read ((k', b') :: m') a) : k' ≤ k :=
  have hfrom : Memory.wfFrom k' ((k', b') :: m') = true :=
    Memory.wfFrom_cons.2 ⟨le_refl k', (Memory.wfFrom_cons.1 hm').2⟩
  Memory.le_of_read_ne hfrom (hread k ▸ Memory.read_head_ne hm)

/-- Canonical lists that read alike begin at the same offset, with the same byte, and go on alike. -/
theorem Memory.eq_of_read_eq {lo : Nat} {m m' : Memory} (hm : Memory.wfFrom lo m = true)
    (hm' : Memory.wfFrom lo m' = true) (hread : ∀ a, m.read a = m'.read a) : m = m' := by
  induction m generalizing lo m' with
  | nil =>
    cases m' with
    | nil => rfl
    | cons c' m' => exact absurd (hread c'.1).symm (Memory.read_head_ne hm')
  | cons c m ih =>
    obtain ⟨k, b⟩ := c
    cases m' with
    | nil => exact absurd (hread k) (Memory.read_head_ne hm)
    | cons c' m' =>
      obtain ⟨k', b'⟩ := c'
      obtain rfl : k = k' := Nat.le_antisymm
        (Memory.head_le_of_read_eq hm' hm fun a => (hread a).symm)
        (Memory.head_le_of_read_eq hm hm' hread)
      obtain ⟨-, -, htail⟩ := Memory.wfFrom_cons.1 hm
      obtain ⟨-, -, htail'⟩ := Memory.wfFrom_cons.1 hm'
      have hb : b = b' := by simpa [Memory.read] using hread k
      rw [hb, ih htail htail' (Memory.tail_reads htail htail' hread)]

/-! ### What keeps the program -/

theorem SameProgram.refl (s : State) : SameProgram s s := ⟨rfl, fun _ => rfl⟩

theorem SameProgram.trans {s t u : State} (hst : SameProgram s t) (htu : SameProgram t u) :
    SameProgram s u :=
  ⟨htu.1.trans hst.1, fun a => (htu.2 a).trans (hst.2 a)⟩

/-- One transition that neither starts a run nor resets keeps the program (R34, R39, R46). -/
theorem move_sameProgram {m : Move} {s : State}
    (hm : m ≠ .host .reset ∧ ∀ program, m ≠ .host (.interpret program)) :
    SameProgram s (move m s) := by
  match m with
  | .core =>
    obtain ⟨-, h⟩ | ⟨-, f, -, h⟩ | ⟨-, i, -, h⟩ := move_core_cases s
    · rw [h]; exact SameProgram.refl s
    · rw [h]; exact sameProgram_of_prog_eq rfl rfl
    · exact exec_sameProgram h
  | .host .reset => exact absurd rfl hm.1
  | .host (.interpret program) => exact absurd rfl (hm.2 program)
  | .host (.writeReg _ _) | .host (.writeStatus _) | .host (.writePc _) =>
    simp only [move, hostMove_writeReg, hostMove_writeStatus, hostMove_writePc]
    exact settle_portWrite (P := SameProgram s) (SameProgram.refl s)
      (sameProgram_of_prog_eq (by simp) (by simp))

/-! ### The obligations -/

/-- Settles O6: the two cases of the read, and the latched program's byte. -/
theorem memReadReturnsStoredByte : Obligations.MemReadReturnsStoredByte := by
  refine ⟨fun s addr => ⟨State.memRead_out, State.memRead_in⟩, fun program s t h addr b => ?_⟩
  rw [interpret_next h]
  exact State.memRead_startRun_eq_ok_iff

/-- Settles O7, by induction on the two lists from their first possible offset on. -/
theorem canonicalMemoriesAreEqual : Obligations.CanonicalMemoriesAreEqual :=
  fun _ _ hm hm' hread => Memory.eq_of_read_eq hm hm' hread

/-- Settles O8, by induction on the sequence of transitions. -/
theorem programIsImmutable : Obligations.ProgramIsImmutable :=
  fun _ s hms =>
    moves_induction (P := SameProgram s) (fun _ _ hm ht => ht.trans (move_sameProgram hm)) hms
      (SameProgram.refl s)

/-- Settles O10: the two reads give the fetch, and the step looks at the program through nothing else. -/
theorem stepReadsOnlyItsInstruction : Obligations.StepReadsOnlyItsInstruction :=
  fun _ _ _ hop him => step_withProgram (State.fetch_withProgram hop him)

end Sys2Proof.Machine

/-! PROOFS. Family 30_encoding: the opcode map, the decoder against the encoder and the formats, undefined opcodes. -/

namespace Sys2Proof

/-! ### The opcode map -/

/-- The opcode column of the table (R54). -/
def Kind.opcode : Kind → Byte
  | .brk => 0x00#8
  | .lda => 0xA9#8
  | .tax => 0xAA#8
  | .inx => 0xE8#8

/-- The map answers a kind for that kind's opcode and for no other byte (R54, R55). -/
theorem decodeOpcode_eq_known_iff {op : Byte} {k : Kind} :
    decodeOpcode op = .known k ↔ op = k.opcode := by
  constructor
  · intro hk
    obtain ⟨rfl, h⟩ | ⟨rfl, h⟩ | ⟨rfl, h⟩ | ⟨rfl, h⟩ | ⟨-, h⟩ := decodeOpcode_cases op <;>
      rw [h] at hk <;> cases hk <;> rfl
  · rintro rfl
    cases k
    case brk => exact decodeOpcode_brk
    case lda => exact decodeOpcode_lda
    case tax => exact decodeOpcode_tax
    case inx => exact decodeOpcode_inx

/-- The undefined bytes are those outside the opcode column (R57). -/
theorem decodeOpcode_eq_undefined_iff {op : Byte} :
    decodeOpcode op = .undefined op ↔ op ∉ [0x00#8, 0xA9#8, 0xAA#8, 0xE8#8] := by
  obtain ⟨rfl, h⟩ | ⟨rfl, h⟩ | ⟨rfl, h⟩ | ⟨rfl, h⟩ | ⟨hne, h⟩ := decodeOpcode_cases op
  case inr.inr.inr.inr => simp [h, hne]
  all_goals simp [h]

/-- Of the 256 byte values all but the four opcodes are undefined (R57). -/
theorem undefined_opcodes_eq_sdiff :
    ((List.range 256).filter fun n =>
      decodeOpcode (BitVec.ofNat 8 n) == .undefined (BitVec.ofNat 8 n)).toFinset =
      Finset.range 256 \ {0x00, 0xA9, 0xAA, 0xE8} := by
  rw [List.toFinset_filter, List.toFinset_range, Finset.sdiff_eq_filter]
  refine Finset.filter_congr fun n hn => ?_
  have hmod : n % 256 = n := Nat.mod_eq_of_lt (Finset.mem_range.1 hn)
  simp [decodeOpcode_eq_undefined_iff, ← BitVec.toNat_inj, hmod]

theorem undefined_opcodes_length :
    ((List.range 256).filter fun n =>
      decodeOpcode (BitVec.ofNat 8 n) == .undefined (BitVec.ofNat 8 n)).length = 252 := by
  rw [← List.toFinset_card_of_nodup (List.nodup_range.filter _), undefined_opcodes_eq_sdiff,
    Finset.card_sdiff_of_subset (by simp [Finset.insert_subset_iff]), Finset.card_range]
  rfl

/-! ### The decoder -/

theorem decode_of_undefined {op : Byte} (h : decodeOpcode op = .undefined op) (rest : List Byte) :
    decode (op :: rest) = .error (.undefinedOpcode op) := by
  simp [decode, h]

/-- The decoder reads back the code of any instruction, and leaves what follows it (R48 to R51). -/
theorem decode_encode_append (i : Instr) (rest : List Byte) :
    decode (encode i ++ rest) = .ok (i, rest) := by
  cases i <;> rfl

/-- Everything the decoder can answer, each with the bytes it answers it for (R53, R56). -/
theorem decode_cases (bs : List Byte) :
    (bs = [] ∧ decode bs = .error .noOpcode) ∨
    (bs = [0xA9#8] ∧ decode bs = .error .missingOperand) ∨
    (∃ op rest, bs = op :: rest ∧ decodeOpcode op = .undefined op ∧
      decode bs = .error (.undefinedOpcode op)) ∨
    (∃ i rest, bs = encode i ++ rest ∧ decode bs = .ok (i, rest)) := by
  cases bs with
  | nil => exact .inl ⟨rfl, rfl⟩
  | cons op rest =>
    obtain ⟨rfl, -⟩ | ⟨rfl, -⟩ | ⟨rfl, -⟩ | ⟨rfl, -⟩ | ⟨-, h⟩ := decodeOpcode_cases op
    · exact .inr (.inr (.inr ⟨.brk, rest, rfl, decode_encode_append .brk rest⟩))
    · cases rest with
      | nil => exact .inr (.inl ⟨rfl, rfl⟩)
      | cons v rest =>
        exact .inr (.inr (.inr ⟨.lda v, rest, rfl, decode_encode_append (.lda v) rest⟩))
    · exact .inr (.inr (.inr ⟨.tax, rest, rfl, decode_encode_append .tax rest⟩))
    · exact .inr (.inr (.inr ⟨.inx, rest, rfl, decode_encode_append .inx rest⟩))
    · exact .inr (.inr (.inl ⟨op, rest, rfl, h, decode_of_undefined h rest⟩))

theorem decode_eq_ok_iff {bs : List Byte} {i : Instr} {rest : List Byte} :
    decode bs = .ok (i, rest) ↔ bs = encode i ++ rest := by
  constructor
  · intro hok
    obtain ⟨-, h⟩ | ⟨-, h⟩ | ⟨op, tail, -, -, h⟩ | ⟨j, tail, hbs, h⟩ := decode_cases bs <;>
      rw [h] at hok <;> cases hok
    exact hbs
  · rintro rfl
    exact decode_encode_append i rest

theorem decode_eq_noOpcode_iff {bs : List Byte} : decode bs = .error .noOpcode ↔ bs = [] := by
  constructor
  · intro herr
    obtain ⟨hbs, h⟩ | ⟨-, h⟩ | ⟨op, rest, -, -, h⟩ | ⟨i, rest, -, h⟩ := decode_cases bs <;>
      rw [h] at herr <;> cases herr
    exact hbs
  · rintro rfl
    rfl

theorem decode_eq_missingOperand_iff {bs : List Byte} :
    decode bs = .error .missingOperand ↔ bs = [0xA9#8] := by
  constructor
  · intro herr
    obtain ⟨-, h⟩ | ⟨hbs, h⟩ | ⟨op, rest, -, -, h⟩ | ⟨i, rest, -, h⟩ := decode_cases bs <;>
      rw [h] at herr <;> cases herr
    exact hbs
  · rintro rfl
    rfl

theorem decode_eq_undefinedOpcode_iff {bs : List Byte} {b : Byte} :
    decode bs = .error (.undefinedOpcode b) ↔
      bs.head? = some b ∧ decodeOpcode b = .undefined b := by
  constructor
  · intro herr
    obtain ⟨-, h⟩ | ⟨-, h⟩ | ⟨op, rest, hbs, hop, h⟩ | ⟨i, rest, -, h⟩ := decode_cases bs <;>
      rw [h] at herr <;> cases herr
    exact ⟨by rw [hbs]; rfl, hop⟩
  · rintro ⟨hhead, hb⟩
    obtain ⟨rest, rfl⟩ := List.head?_eq_some_iff.1 hhead
    exact decode_of_undefined hb rest

/-! ### The formats -/

theorem codeWellFormed_encode (i : Instr) : codeWellFormed (encode i) = true := by
  cases i
  case brk => exact Laws.CodeForm.brk.1
  case lda v => exact (Laws.CodeForm.lda v).1
  case tax => exact Laws.CodeForm.tax.1
  case inx => exact Laws.CodeForm.inx.1

/-- The two formats hold exactly the codes of the instructions (R48 to R50). -/
theorem codeWellFormed_iff {bs : List Byte} : codeWellFormed bs = true ↔ ∃ i, bs = encode i := by
  constructor
  · intro h
    match bs with
    | [] => cases h
    | [op] =>
      obtain (rfl | rfl) | rfl : (op = 0x00#8 ∨ op = 0xAA#8) ∨ op = 0xE8#8 := by
        simpa [codeWellFormed] using h
      · exact ⟨.brk, rfl⟩
      · exact ⟨.tax, rfl⟩
      · exact ⟨.inx, rfl⟩
    | [op, v] =>
      obtain rfl : op = 0xA9#8 := by simpa [codeWellFormed] using h
      exact ⟨.lda v, rfl⟩
    | _ :: _ :: _ :: _ => cases h
  · rintro ⟨i, rfl⟩
    exact codeWellFormed_encode i

/-! ### Executing an undefined opcode -/

theorem Machine.State.AtOpcode.opcodeAtPc {s : Machine.State} {op : Byte} (h : s.AtOpcode op) :
    s.opcodeAtPc = .ok op := by
  obtain ⟨-, hin, hread⟩ := h
  exact Machine.State.memRead_eq_ok_iff.2 ⟨hin, hread⟩

theorem Machine.State.fetch_of_undefined {s : Machine.State} {op : Byte}
    (hop : s.opcodeAtPc = .ok op) (h : decodeOpcode op = .undefined op) :
    s.fetch = .error (.unimplementedOpcode op) := by
  simp [Machine.State.fetch, hop, h]

/-! ### The obligations -/

/-- Settles O3. -/
theorem decodeInvertsEncode : Obligations.DecodeInvertsEncode :=
  fun _ _ _ => decode_eq_ok_iff

/-- Settles O4: each rejection is one case of what the decoder can answer. -/
theorem decoderRejectsExactlyByName : Obligations.DecoderRejectsExactlyByName := by
  refine fun bs => ⟨decode_eq_noOpcode_iff, decode_eq_missingOperand_iff, fun b => ?_⟩
  rw [← decodeOpcode_eq_undefined_iff]
  exact decode_eq_undefinedOpcode_iff

/-- Settles O5: both sides say that the bytes are the code of an instruction. -/
theorem decoderAcceptsExactlyTheFormats : Obligations.DecoderAcceptsExactlyTheFormats := by
  intro bs
  simp only [decode_eq_ok_iff, List.append_nil, codeWellFormed_iff]

/-- Settles O27: the fetch of an undefined opcode faults. -/
theorem undefinedOpcodeFaults : Obligations.UndefinedOpcodeFaults := by
  refine ⟨fun s op hop hs => ?_, undefined_opcodes_length⟩
  have hfetch := Machine.State.fetch_of_undefined hs.opcodeAtPc
    (decodeOpcode_eq_undefined_iff.2 hop)
  obtain ⟨hm, -, -⟩ := hs
  exact Machine.step_fault hm hfetch

/-- Settles O1. -/
theorem opcodeMapIsTheTable : Obligations.OpcodeMapIsTheTable :=
  ⟨fun _ => ⟨decodeOpcode_eq_known_iff, decodeOpcode_eq_known_iff, decodeOpcode_eq_known_iff,
    decodeOpcode_eq_known_iff, decodeOpcode_eq_undefined_iff⟩, rfl, rfl, rfl, rfl⟩

/-- Settles O2: each word is the code of its instruction before the bytes that follow, or begins with an undefined
opcode. -/
theorem writtenWordsDecode : Obligations.WrittenWordsDecode :=
  ⟨decode_encode_append .brk [0xFF#8], decode_encode_append (.lda 0x05#8) [0x00#8],
    decode_encode_append .tax [0x00#8], decode_encode_append .inx [0xA9#8],
    decode_of_undefined (decodeOpcode_eq_undefined_iff.2 (by decide)) [0x00#8]⟩

end Sys2Proof

/-! PROOFS. Family 40_execution_loop: the fetch against the code at pc, how a step and a run end, the modes. -/

namespace Sys2Proof.Machine

/-! ### The code at the program counter -/

/-- These bytes lie in bounds from the program counter on, at offsets taken modulo 2^16 (R19, R35). -/
def State.HoldsCode (s : State) (bytes : List Byte) : Prop :=
  ∀ (k : Nat) (b : Byte), bytes[k]? = some b → s.memRead (s.pc + BitVec.ofNat 16 k) = .ok b

section Code

variable {s : State} {i : Instr}

theorem State.holdsCode_nil (s : State) : s.HoldsCode [] := fun _ _ h => by simp at h

theorem State.holdsCode_singleton_iff {op : Byte} :
    s.HoldsCode [op] ↔ s.opcodeAtPc = .ok op := by
  simp [State.HoldsCode, State.opcodeAtPc, List.getElem?_singleton]

theorem State.HoldsCode.of_append {bytes rest : List Byte} (h : s.HoldsCode (bytes ++ rest)) :
    s.HoldsCode bytes := by
  intro k b hb
  obtain ⟨hk, -⟩ := List.getElem?_eq_some_iff.1 hb
  exact h k b (by rwa [List.getElem?_append_left hk])

theorem State.holdsCode_pair_iff {op v : Byte} :
    s.HoldsCode [op, v] ↔ s.opcodeAtPc = .ok op ∧ s.immediateAtPc = .ok v := by
  constructor
  · intro h
    exact ⟨State.holdsCode_singleton_iff.1 (h.of_append (bytes := [op])), h 1 v rfl⟩
  · rintro ⟨hop, hv⟩ (_ | _ | k) b hb
    · obtain rfl : op = b := by simpa using hb
      exact State.holdsCode_singleton_iff.2 hop 0 op rfl
    · obtain rfl : v = b := by simpa using hb
      exact hv
    · simp at hb

/-- A program read answers a byte, or it faults with its own offset (R35). -/
theorem State.memRead_cases (s : State) (addr : Word) :
    s.memRead addr = .error (.outOfBoundsFetch addr) ∨ ∃ b, s.memRead addr = .ok b := by
  obtain h | h := Nat.lt_or_ge addr.toNat s.progLen
  · exact .inr ⟨_, State.memRead_in h⟩
  · exact .inl (State.memRead_out h)

/-- Everything `codeAtPc` can be, each with the reads that lead to it. -/
theorem State.codeAtPc_cases (s : State) :
    (s.opcodeAtPc = .error (.outOfBoundsFetch s.pc) ∧ s.codeAtPc = []) ∨
    (∃ op, s.opcodeAtPc = .ok op ∧
      s.immediateAtPc = .error (.outOfBoundsFetch (pcAfterByte s.pc)) ∧ s.codeAtPc = [op]) ∨
    (∃ op v, s.opcodeAtPc = .ok op ∧ s.immediateAtPc = .ok v ∧ s.codeAtPc = [op, v]) := by
  obtain hop | ⟨op, hop⟩ : _ ∨ ∃ op, s.opcodeAtPc = .ok op := s.memRead_cases s.pc
  · exact .inl ⟨hop, by simp [State.codeAtPc, State.opcodeAtPc, hop]⟩
  · obtain hv | ⟨v, hv⟩ : _ ∨ ∃ v, s.immediateAtPc = .ok v := s.memRead_cases (pcAfterByte s.pc)
    · exact .inr (.inl ⟨op, hop, hv, by simp [State.codeAtPc, State.immediateAtPc, hop, hv]⟩)
    · exact .inr (.inr ⟨op, v, hop, hv, by simp [State.codeAtPc, hop, hv]⟩)

theorem State.holdsCode_codeAtPc (s : State) : s.HoldsCode s.codeAtPc := by
  obtain ⟨-, h⟩ | ⟨op, hop, -, h⟩ | ⟨op, v, hop, hv, h⟩ := s.codeAtPc_cases <;> rw [h]
  · exact s.holdsCode_nil
  · exact State.holdsCode_singleton_iff.2 hop
  · exact State.holdsCode_pair_iff.2 ⟨hop, hv⟩

/-! ### The fetch -/

/-- A defined opcode's fetch is the instruction put together from its operand's read. -/
theorem State.fetch_of_opcode (k : Kind) (hop : s.opcodeAtPc = .ok k.opcode) :
    s.fetch = k.assemble s.immediateAtPc := by
  simp [State.fetch, hop, decodeOpcode_eq_known_iff.2 rfl]

theorem State.fetch_of_opcode_error {f : Fault} (hop : s.opcodeAtPc = .error f) :
    s.fetch = .error f := by
  simp [State.fetch, hop]

/-- The fetch answers an instruction exactly where that instruction's code lies at the program counter. -/
theorem State.fetch_eq_ok_iff : s.fetch = .ok i ↔ s.HoldsCode (encode i) := by
  constructor
  · intro hi
    obtain ⟨f, -, hf⟩ | ⟨op, -, -, hf⟩ | ⟨hop, hf⟩ | ⟨hop, hf⟩ | ⟨hop, hf⟩ | ⟨-, f, -, hf⟩ |
      ⟨hop, v, hv, hf⟩ := s.fetch_cases <;> rw [hf] at hi <;> cases hi
    · exact State.holdsCode_singleton_iff.2 hop
    · exact State.holdsCode_singleton_iff.2 hop
    · exact State.holdsCode_singleton_iff.2 hop
    · exact State.holdsCode_pair_iff.2 ⟨hop, hv⟩
  · intro h
    cases i with
    | brk => exact State.fetch_of_opcode .brk (State.holdsCode_singleton_iff.1 h)
    | lda v =>
      obtain ⟨hop, hv⟩ := State.holdsCode_pair_iff.1 h
      rw [State.fetch_of_opcode .lda hop, hv]
      rfl
    | tax => exact State.fetch_of_opcode .tax (State.holdsCode_singleton_iff.1 h)
    | inx => exact State.fetch_of_opcode .inx (State.holdsCode_singleton_iff.1 h)

/-- The fetch answers what the decoder reads off any bytes that lie at the program counter. -/
theorem State.HoldsCode.fetch_of_decode {bytes rest : List Byte} (h : s.HoldsCode bytes)
    (hd : decode bytes = .ok (i, rest)) : s.fetch = .ok i := by
  rw [decode_eq_ok_iff.1 hd] at h
  exact State.fetch_eq_ok_iff.2 h.of_append

theorem State.fetch_of_codeAtPc_nil (h : s.codeAtPc = []) :
    s.fetch = .error (.outOfBoundsFetch s.pc) := by
  obtain ⟨hop, -⟩ | ⟨op, -, -, h'⟩ | ⟨op, v, -, -, h'⟩ := s.codeAtPc_cases
  · exact State.fetch_of_opcode_error hop
  all_goals simp [h'] at h

theorem State.fetch_of_codeAtPc_lone_lda (h : s.codeAtPc = [0xA9#8]) :
    s.fetch = .error (.outOfBoundsFetch (s.pc + 1#16)) := by
  obtain ⟨-, h'⟩ | ⟨op, hop, hv, h'⟩ | ⟨op, v, -, -, h'⟩ := s.codeAtPc_cases
  case inr.inl =>
    obtain rfl : op = 0xA9#8 := by simpa [h'] using h
    rw [State.fetch_of_opcode .lda hop, hv]
    rfl
  all_goals simp [h'] at h

theorem State.opcodeAtPc_of_codeAtPc_cons {op : Byte} {rest : List Byte}
    (h : s.codeAtPc = op :: rest) : s.opcodeAtPc = .ok op := by
  have hcode := s.holdsCode_codeAtPc
  rw [h] at hcode
  exact State.holdsCode_singleton_iff.1 (hcode.of_append (bytes := [op]))

/-- Code laid at the program counter of a canonical buffer lies there: the two offsets differ, so the second write
leaves the first byte as it is. -/
theorem State.holdsCode_placeCode (b0 b1 : Byte) (hwf : s.prog.wf = true) :
    (s.placeCode b0 b1).HoldsCode [b0, b1] := by
  have hne : s.pc.toNat ≠ (pcAfterByte s.pc).toNat := by unfold pcAfterByte; bv_omega
  have hread := Memory.read_write (Memory.wf_write s.pc.toNat b0 hwf) (pcAfterByte s.pc).toNat b1
  refine State.holdsCode_pair_iff.2 ⟨State.memRead_eq_ok_iff.2 ⟨?_, ?_⟩,
    State.memRead_eq_ok_iff.2 ⟨?_, ?_⟩⟩
  · simp only [State.placeCode_pc, State.placeCode_progLen]; omega
  · simp [hread, hne, Memory.read_write hwf]
  · simp only [State.placeCode_pc, State.placeCode_progLen]; omega
  · simp [hread]

end Code

/-! ### The ends of a step -/

section Step

variable {s t : State}

theorem encode_head_eq_zero_iff {i : Instr} : (encode i).head? = some 0x00#8 ↔ i = .brk := by
  cases i <;> simp [encode]

/-- `BRK` is fetched exactly at opcode 0x00 (R54). -/
theorem State.fetch_eq_brk_iff {i : Instr} (h : s.fetch = .ok i) :
    s.fetch = .ok .brk ↔ s.prog.read s.pc.toNat = 0x00#8 := by
  rw [h, Except.ok.injEq, ← encode_head_eq_zero_iff, State.encode_head_of_fetch h, Option.some.injEq]

/-- A step that answers a next state executed `BRK` and halted, or another instruction and stays RUNNING (R70). -/
theorem step_next_mode (h : step s = .next t) :
    (s.fetch = .ok .brk ∧ t.mode = .halted) ∨ (s.fetch ≠ .ok .brk ∧ t.mode = .running) := by
  obtain ⟨hm, i, hf, hi⟩ := step_next h
  obtain ⟨rfl, ht, -⟩ | ⟨hne, ht, -⟩ := exec_mode_status hi
  · exact .inl ⟨hf, ht⟩
  · exact .inr ⟨by simpa [hf] using hne, ht.trans hm⟩

/-- With at most 65535 bytes latched the program counter does not wrap: every byte of the instruction lies in bounds, so
the offset after the last one is at most 65535 (R19, R73). -/
theorem step_next_pc_lt (hlen : s.progLen ≤ 65535) (h : step s = .next t) :
    s.pc.toNat < t.pc.toNat := by
  obtain ⟨-, i, hf, hi⟩ := step_next h
  have hcode := State.fetch_eq_ok_iff.1 hf
  have hpc := exec_pc hi
  cases i with
  | lda v =>
    obtain ⟨hop, hv⟩ := State.holdsCode_pair_iff.1 hcode
    obtain ⟨hin, -⟩ := State.memRead_eq_ok_iff.1 hop
    obtain ⟨hin', -⟩ := State.memRead_eq_ok_iff.1 hv
    simp only [encode, List.length_cons, List.length_nil, pcAfterByte] at hpc hin'
    bv_omega
  | brk | tax | inx =>
    obtain ⟨hin, -⟩ := State.memRead_eq_ok_iff.1 (State.holdsCode_singleton_iff.1 hcode)
    simp only [encode, List.length_cons, List.length_nil] at hpc
    bv_omega

theorem step_of_out_of_bounds (hm : s.mode = .running) (hout : s.progLen ≤ s.pc.toNat) :
    step s = .fault (.outOfBoundsFetch s.pc) :=
  step_fault hm (State.fetch_of_opcode_error (State.memRead_out hout))

theorem State.AtOpcode.step_brk (h : s.AtOpcode 0x00#8) : step s = .next s.advancePc.halt :=
  step_exec h.1 (State.fetch_of_opcode .brk h.opcodeAtPc)

theorem State.AtOpcode.step_inx (h : s.AtOpcode 0xE8#8) :
    step s = .next (s.advancePc.writeResult .x (s.regX + 1#8)) :=
  step_exec h.1 (State.fetch_of_opcode .inx h.opcodeAtPc)

end Step

/-! ### Runs of short programs -/

/-- As long as no byte past 65535 is latched, the distance from the program counter to the end of the program bounds the
run: each step shortens it, and past the end the fetch faults (R73). -/
theorem execute_ends {n : Nat} {s : State} (hm : s.mode = .running) (hlen : s.progLen ≤ 65535)
    (hn : s.progLen ≤ s.pc.toNat + n) :
    (∃ cpu, execute n s = .halted cpu) ∨ ∃ f, execute (n + 1) s = .faulted f := by
  induction n generalizing s with
  | zero => exact .inr ⟨_, execute_succ_of_fault (step_of_out_of_bounds hm hn) 0⟩
  | succ n ih =>
    obtain ⟨hne, -⟩ | ⟨-, f, -, h⟩ | ⟨-, i, t, -, hi, h⟩ := step_cases s
    · exact absurd hm hne
    · exact .inr ⟨f, execute_succ_of_fault h _⟩
    · obtain ⟨-, ht⟩ | ⟨-, ht⟩ := step_next_mode h
      · exact .inl ⟨_, execute_succ_of_halted h ht n⟩
      · have hgo := execute_succ_of_not_halted h (by simp [ht])
        obtain ⟨-, hlen', -, -⟩ := exec_keeps_control hi
        have hpc := step_next_pc_lt hlen h
        rw [hgo, hgo]
        exact ih ht (by omega) (by omega)

/-! ### A run that never ends -/

/-- RUNNING, with every offset the program counter can reach in bounds and holding `INX`. -/
structure State.AllInx (s : State) : Prop where
  running : s.mode = .running
  full : 65536 ≤ s.progLen
  inx : ∀ a < 65536, s.prog.read a = 0xE8#8

section AllInx

variable {s : State}

theorem State.AllInx.step (h : s.AllInx) :
    step s = .next (s.advancePc.writeResult .x (s.regX + 1#8)) :=
  State.AtOpcode.step_inx ⟨h.running, Nat.lt_of_lt_of_le s.pc.isLt h.full, h.inx _ s.pc.isLt⟩

theorem State.AllInx.after_step (h : s.AllInx) :
    (s.advancePc.writeResult .x (s.regX + 1#8)).AllInx where
  running := by simpa using h.running
  full := by simpa using h.full
  inx := by simpa using h.inx

theorem State.AllInx.execute_eq (h : s.AllInx) (fuel : Nat) : execute fuel s = .noVerdict := by
  induction fuel generalizing s with
  | zero => rfl
  | succ fuel ih =>
    rw [execute_succ_of_not_halted h.step (by simp [h.running]), ih h.after_step]

theorem State.AllInx.regX_moves (h : s.AllInx) (n : Nat) :
    (moves (List.replicate n .core) s).regX = s.regX + BitVec.ofNat 8 n := by
  induction n generalizing s with
  | zero => simp [moves]
  | succ n ih =>
    have hmove : move .core s = s.advancePc.writeResult .x (s.regX + 1#8) := by
      simp [move, h.step, settle]
    rw [List.replicate_succ, moves, hmove, ih h.after_step, State.writeResult_x_regX,
      BitVec.add_assoc, Nat.add_comm n, BitVec.ofNat_add]

end AllInx

/-! ### The executor against the transitions -/

/-- The state shows this verdict: its mode, and the CPU State or the record seen (D12). The other two results say nothing
of a state. -/
def State.Shows (t : State) : RunResult → Prop
  | .halted cpu => t.mode = .halted ∧ t.cpu = cpu
  | .faulted f => t.mode = .faulted ∧ t.fault = some f
  | .noVerdict => True
  | .refused _ => True

/-- What the executor answers, some state within the budget shows (R64, R71). -/
theorem execute_shown (fuel : Nat) (s : State) :
    ∃ n ≤ fuel, (moves (List.replicate n .core) s).Shows (execute fuel s) := by
  induction fuel generalizing s with
  | zero => exact ⟨0, le_refl 0, trivial⟩
  | succ fuel ih =>
    cases h : step s with
    | fault f =>
      rw [execute_succ_of_fault h]
      exact ⟨1, by omega, by simp [moves, move, h, settle, State.Shows]⟩
    | refused r =>
      rw [execute_succ_of_refused h]
      exact ⟨0, by omega, trivial⟩
    | next t =>
      have hmove : move .core s = t := by simp [move, h, settle]
      by_cases ht : t.mode = .halted
      · rw [execute_succ_of_halted h ht]
        exact ⟨1, by omega, by simpa [moves, hmove, State.Shows] using ht⟩
      · obtain ⟨n, hn, hshows⟩ := ih t
        rw [execute_succ_of_not_halted h ht]
        exact ⟨n + 1, by omega, by rwa [List.replicate_succ, moves, hmove]⟩

/-! ### The control state machine -/

section ControlTable

variable {s : State} {dst : Mode}

theorem controlTable_core_of_running (hm : s.mode = .running) (h : RunningRows s dst) :
    controlTable s .core dst := by
  simpa [controlTable, hm] using h

theorem controlTable_core_of_not_running (hm : s.mode ≠ .running) : controlTable s .core s.mode := by
  unfold controlTable
  cases h : s.mode
  case running => exact absurd h hm
  all_goals rfl

theorem RunningRows.of_fault {f : Fault} (h : step s = .fault f) : RunningRows s .faulted where
  onFault _ _ := rfl
  onBrk hbrk := by
    obtain ⟨-, h'⟩ | ⟨-, g, hg, -⟩ | ⟨-, i, t, -, -, h'⟩ := step_cases s
    · simp [h'] at h
    · simp [hg] at hbrk
    · simp [h'] at h
  otherwise _ hnext _ := by simp [h] at hnext

theorem RunningRows.of_next {t : State} (h : step s = .next t) : RunningRows s t.mode where
  onFault _ hfault := by simp [h] at hfault
  onBrk hbrk := by
    obtain ⟨-, ht⟩ | ⟨hne, -⟩ := step_next_mode h
    · exact ht
    · exact absurd hbrk hne
  otherwise _ _ hne := by
    obtain ⟨hbrk, -⟩ | ⟨-, ht⟩ := step_next_mode h
    · exact absurd hbrk hne
    · exact ht

theorem controlTable_move_core (s : State) : controlTable s .core (move .core s).mode := by
  obtain ⟨hm, h⟩ | ⟨hm, f, hf, h⟩ | ⟨hm, i, hf, hi⟩ := move_core_cases s
  · rw [h]; exact controlTable_core_of_not_running hm
  · rw [h]; exact controlTable_core_of_running hm (.of_fault hf)
  · exact controlTable_core_of_running hm (.of_next ((step_exec hm hf).trans hi))

theorem controlTable_move_interpret (program : List Byte) (s : State) :
    controlTable s (.host (.interpret program)) (move (.host (.interpret program)) s).mode := by
  obtain ⟨hm | hm, h⟩ | ⟨hm | hm, h⟩ := move_interpret_cases program s <;>
    simp [controlTable, h, hm]

end ControlTable

/-! ### The obligations -/

/-- Settles O23: the fetch answers the instruction whose code lies at pc. -/
theorem stepRunsCodeAtPc : Obligations.StepRunsCodeAtPc := by
  intro s i hm hcode
  exact step_exec hm (State.fetch_eq_ok_iff.2 fun k b hb =>
    State.memRead_eq_ok_iff.2 (hcode k b hb))

/-- Settles O24, along everything the decoder can answer. -/
theorem fetchAgreesWithDecoder : Obligations.FetchAgreesWithDecoder := by
  intro s
  obtain ⟨hbs, h⟩ | ⟨hbs, h⟩ | ⟨op, rest, hbs, hop, h⟩ | ⟨i, rest, -, h⟩ :=
    decode_cases s.codeAtPc <;> rw [h]
  · exact State.fetch_of_codeAtPc_nil hbs
  · exact State.fetch_of_codeAtPc_lone_lda hbs
  · exact State.fetch_of_undefined (State.opcodeAtPc_of_codeAtPc_cons hbs) hop
  · exact s.holdsCode_codeAtPc.fetch_of_decode h

/-- Settles O25: the two bytes of the word lie at pc, so the fetch answers what they decode to. -/
theorem fetchWordIsRunNext : Obligations.FetchWordIsRunNext := by
  intro s nbits w i hwf hi
  unfold decodeTableWord at hi
  split at hi <;> cases hi
  exact step_exec (State.placeCode_mode s _ _)
    ((State.holdsCode_placeCode _ _ hwf).fetch_of_decode ‹_›)

/-- Settles O28. -/
theorem stepRefusedExactlyOutsideRunning : Obligations.StepRefusedExactlyOutsideRunning := by
  intro s r
  obtain ⟨hm, h⟩ | ⟨hm, f, -, h⟩ | ⟨hm, i, t, -, -, h⟩ := step_cases s
  · simp [h, hm, eq_comm]
  all_goals simp [h, hm]

/-- Settles O30: `BRK` is what is fetched at opcode 0x00, and it alone halts. -/
theorem onlyBrkEndsARunNormally : Obligations.OnlyBrkEndsARunNormally := by
  intro s t h
  obtain ⟨-, i, hf, -⟩ := step_next h
  rw [Ne, ← State.fetch_eq_brk_iff hf]
  obtain ⟨hbrk, ht⟩ | ⟨hbrk, ht⟩ := step_next_mode h <;> simp [ht, hbrk]

/-- Settles O32: a run starts at offset 0, `L` bytes from the end of its program. -/
theorem shortProgramsTerminate : Obligations.ShortProgramsTerminate := by
  intro program s hlen hs
  obtain ⟨-, h⟩ | ⟨hm, -⟩ | ⟨hm, -⟩ := interpret_cases program s
  · simp only [interpretRun, h]
    exact execute_ends (State.startRun_mode s program) hlen (Nat.le_add_left _ _)
  all_goals simp [hm] at hs

/-- Settles O33: each step increments X and leaves a state of the same kind. -/
theorem allInxDiverges : Obligations.AllInxDiverges := by
  intro s hm hlen hread
  have h : s.AllInx := ⟨hm, hlen, hread⟩
  exact ⟨h.execute_eq, h.regX_moves⟩

/-- Settles O35: the state that shows the executor's answer is the end the transitions reach. -/
theorem verdictsAreReachedByTransitions : Obligations.VerdictsAreReachedByTransitions := by
  intro fuel s
  have hshown := execute_shown fuel s
  refine ⟨fun cpu hcpu => ?_, fun f hf => ?_⟩
  · rwa [hcpu] at hshown
  · rwa [hf] at hshown

/-- Settles O47, one move at a time. -/
theorem modeChangesFollowTheTable : Obligations.ModeChangesFollowTheTable := by
  intro m s
  match m with
  | .core => exact controlTable_move_core s
  | .host .reset => rfl
  | .host (.interpret program) => exact controlTable_move_interpret program s
  | .host (.writeReg _ _) | .host (.writeStatus _) | .host (.writePc _) =>
    simp only [move, hostMove_writeReg, hostMove_writeStatus, hostMove_writePc]
    exact settle_portWrite (P := fun t => t.mode = s.mode) rfl (by simp)

/-- Settles O22. -/
theorem stepRunsDecodedInstruction : Obligations.StepRunsDecodedInstruction :=
  fun s _ _ hm hd => step_exec hm (s.holdsCode_codeAtPc.fetch_of_decode hd)

/-- Settles O31: pc advances past the one byte of `BRK`, modulo 2^16. -/
theorem brkAtTheLastOffsetHalts : Obligations.BrkAtTheLastOffsetHalts := by
  intro s hs hlast
  refine ⟨_, hs.step_brk, State.halt_mode _, ?_⟩
  rw [State.halt_pc, State.advancePc_pc, pcAfterByte, BitVec.toNat_add, ← hlast]
  rfl

/-- Settles O42. -/
theorem hostResetRestoresCreationState : Obligations.HostResetRestoresCreationState :=
  fun s => ⟨s.hostReset, rfl, rfl⟩

/-- Settles O43: the state `interpret` leaves is the start of the run. -/
theorem interpretStartsARun : Obligations.InterpretStartsARun := by
  intro program s hs
  obtain ⟨-, h⟩ | ⟨hm, -⟩ | ⟨hm, -⟩ := interpret_cases program s
  · refine ⟨_, h, rfl, rfl, rfl, rfl, fun k b hb => ?_, rfl, rfl, rfl⟩
    rw [State.startRun_prog, Memory.read_ofBytes, List.getD_eq_getElem?_getD, hb, Option.getD_some]
  all_goals simp [hm] at hs

/-- Settles O48. -/
theorem outputSignalsShowTheMode : Obligations.OutputSignalsShowTheMode :=
  fun _ => ⟨beq_iff_eq, beq_iff_eq, beq_iff_eq⟩

end Sys2Proof.Machine

/-! PROOFS. Family 41_flag_logic: the flag-update rule's formula, the flags' values, and which register they describe along
a sequence of transitions. -/

namespace Sys2Proof.Machine

/-! ### The bits of a merged status -/

/-- A flag as the formula of R77 writes it. -/
theorem setWidth_ofBool_eq_ite (b : Bool) :
    (BitVec.ofBool b).setWidth 8 = if b then 1#8 else 0#8 := by
  cases b <;> rfl

/-- Bit 7 of a byte is set from 0x80 up (R79). -/
theorem getLsbD_seven_iff (r : Byte) : r.getLsbD 7 = true ↔ 0x80 ≤ r.toNat := by
  rw [← BitVec.msb_eq_getLsbD_last r, BitVec.msb_eq_decide, decide_eq_true_iff]

/-- The mask 0x80 picks bit 7 (R79). -/
theorem and_0x80_eq_iff (p : Byte) : p &&& 0x80#8 = 0x80#8 ↔ p.getLsbD 7 = true := by
  rw [show 0x80#8 = BitVec.twoPow 8 7 from rfl, BitVec.and_twoPow]
  cases p.getLsbD 7 <;> decide

/-- Flags that describe a byte are not both set: a zero byte has bit 7 clear (R80). -/
theorem FlagsDescribe.not_both {p r : Byte} (h : FlagsDescribe p r) :
    ¬ (p.getLsbD 1 = true ∧ p.getLsbD 7 = true) := by
  rintro ⟨hz, hn⟩
  rw [h.1, beq_iff_eq] at hz
  rw [h.2, hz] at hn
  cases hn

/-! ### The register the flags describe -/

/-- Z and N describe the register that `describedAfter` counts, when it counts one (R81). -/
def State.FlagsDescribeReg (s : State) (r : Option Reg) : Prop :=
  ∀ q, r = some q → FlagsDescribe s.status (s.readReg q)

section Described

variable {s t : State} {r : Option Reg}

theorem State.flagsDescribeReg_none (s : State) : s.FlagsDescribeReg none :=
  fun _ h => nomatch h

/-- Only `status`, A and X decide what the flags describe. -/
theorem State.FlagsDescribeReg.of_eq (h : s.FlagsDescribeReg r) (hstatus : t.status = s.status)
    (hA : t.regA = s.regA) (hX : t.regX = s.regX) : t.FlagsDescribeReg r := by
  intro q hq
  have hreg : t.readReg q = s.readReg q := by
    cases q
    · exact hA
    · exact hX
  rw [hstatus, hreg]
  exact h q hq

/-- A register keeps its byte when another one is written. -/
theorem State.readReg_writeReg_ne {p q : Reg} (hne : q ≠ p) (s : State) (v : Byte) :
    (s.writeReg p v).readReg q = s.readReg q := by
  cases p <;> cases q
  case a.a | x.x => exact absurd rfl hne
  all_goals rfl

/-- An instruction without a result register leaves `status`, A and X alone (R85). -/
theorem exec_of_resultRegOf_none {i : Instr} (h : exec i s = .next t) (hi : resultRegOf i = none) :
    t.status = s.status ∧ t.regA = s.regA ∧ t.regX = s.regX := by
  cases i <;> cases hi
  cases h
  exact ⟨rfl, rfl, rfl⟩

/-- A completed instruction makes the flags describe its result register, or changes nothing they depend on (R76). -/
theorem exec_keeps_flagsDescribeReg {i : Instr} (hs : s.FlagsDescribeReg r)
    (h : exec i s = .next t) : t.FlagsDescribeReg ((resultRegOf i).or r) := by
  cases hi : resultRegOf i with
  | none =>
    obtain ⟨hstatus, hA, hX⟩ := exec_of_resultRegOf_none h hi
    exact hs.of_eq hstatus hA hX
  | some p =>
    intro q hq
    cases hq
    exact exec_flagsDescribe h hi

/-- What a step does to the described register: outside RUNNING nothing changes, a fault ends it, a completed instruction
puts its result register, if it has one, in its place (R81). -/
theorem describedAfter_core_cases (s : State) (r : Option Reg) :
    (move .core s = s ∧ describedAfter .core s r = r) ∨
    describedAfter .core s r = none ∨
    ∃ i, exec i s = .next (move .core s) ∧ describedAfter .core s r = (resultRegOf i).or r := by
  obtain ⟨hm, h⟩ | ⟨hm, f, hf, h⟩ | ⟨hm, i, t, hf, ht, h⟩ := step_cases s
  · refine .inl ⟨by simp [move, h, settle], ?_⟩
    unfold describedAfter
    cases hs : s.mode
    case running => exact absurd hs hm
    all_goals rfl
  · exact .inr (.inl (by simp [describedAfter, hm, hf]))
  · exact .inr (.inr ⟨i, by simp [move, h, settle, ht], by simp [describedAfter, hm, hf]⟩)

/-- A host write of a register keeps the flags' description of the other one (R81). -/
theorem writeReg_keeps_flagsDescribeReg (hs : s.FlagsDescribeReg r) (p : Reg) (v : Byte) :
    (s.writeReg p v).FlagsDescribeReg (if r = some p then none else r) := by
  split
  case isTrue => exact State.flagsDescribeReg_none _
  case isFalse hp =>
    intro q hq
    have hne : q ≠ p := by
      rintro rfl
      exact hp hq
    rw [State.writeReg_status, State.readReg_writeReg_ne hne]
    exact hs q hq

/-- Every transition keeps the flags describing the register that `describedAfter` counts (R81). -/
theorem move_keeps_flagsDescribeReg (hs : s.FlagsDescribeReg r) (m : Move) :
    (move m s).FlagsDescribeReg (describedAfter m s r) := by
  match m with
  | .core =>
    obtain ⟨h, hr⟩ | hr | ⟨i, hi, hr⟩ := describedAfter_core_cases s r <;> rw [hr]
    · rwa [h]
    · exact State.flagsDescribeReg_none _
    · exact exec_keeps_flagsDescribeReg hs hi
  | .host .reset => exact State.flagsDescribeReg_none _
  | .host (.interpret program) =>
    obtain ⟨-, h⟩ | ⟨-, h⟩ := move_interpret_cases program s <;> rw [h]
    · exact hs.of_eq rfl rfl rfl
    · exact hs
  | .host (.writeReg p v) =>
    rw [move, hostMove_writeReg]
    obtain ⟨hm, h⟩ | ⟨hm, h⟩ := portWrite_cases (·.writeReg p v) s <;> rw [h]
    · simpa [settle, describedAfter, hm] using writeReg_keeps_flagsDescribeReg hs p v
    · simpa [settle, describedAfter, hm] using hs
  | .host (.writeStatus v) =>
    rw [move, hostMove_writeStatus]
    obtain ⟨hm, h⟩ | ⟨hm, h⟩ := portWrite_cases ({ · with status := v }) s <;> rw [h]
    · simpa [settle, describedAfter, hm] using State.flagsDescribeReg_none _
    · simpa [settle, describedAfter, hm] using hs
  | .host (.writePc v) =>
    rw [move, hostMove_writePc]
    exact settle_portWrite (P := (·.FlagsDescribeReg r)) hs (hs.of_eq rfl rfl rfl)

/-- The tracked register is described all along a sequence of transitions, from whichever was described before. -/
theorem moves_keep_flagsDescribeReg (hs : s.FlagsDescribeReg r) (ms : List Move) :
    (moves ms s).FlagsDescribeReg (describedAfterAll ms s r) := by
  induction ms generalizing s r with
  | nil => exact hs
  | cons m ms ih => exact ih (move_keeps_flagsDescribeReg hs m)

end Described

/-! ### The obligations -/

/-- Settles O14: before the first instruction no register is described, and every transition keeps the tracked one
described. -/
theorem flagsDescribeTheResultRegister : Obligations.FlagsDescribeTheResultRegister :=
  fun ms s r h => moves_keep_flagsDescribeReg s.flagsDescribeReg_none ms r h

/-- Settles O12: the merged flags describe the result byte, whose bit 7 is set from 0x80 up. -/
theorem zeroAndNegativeFlagValues : Obligations.ZeroAndNegativeFlagValues := by
  intro s r
  obtain ⟨hz, hn⟩ := flagsDescribe_mergeFlags s.status r
  simp only [State.setZN_status, and_0x80_eq_iff, hz, hn, beq_iff_eq, getLsbD_seven_iff, and_self]

/-- Settles O13: `BRK` keeps `status`, the other instructions merge flags that describe their result. -/
theorem reservedBitsKeptAndFlagsExclusive : Obligations.ReservedBitsKeptAndFlagsExclusive := by
  intro i s t h
  refine ⟨exec_sameReserved h, ?_⟩
  obtain ⟨hi, -, hstatus⟩ | ⟨hi, -, r, hstatus⟩ := exec_mode_status h
  · exact ⟨fun _ => hstatus, fun hne => absurd hi hne⟩
  · exact ⟨fun h => absurd h hi, fun _ => hstatus ▸ (flagsDescribe_mergeFlags s.status r).not_both⟩

/-- Settles O11: the named flags are the formula's two conditions. -/
theorem setZNFollowsItsFormula : Obligations.SetZNFollowsItsFormula := by
  intro s r
  simp only [State.setZN, mergeFlags, flagsOf, setWidth_ofBool_eq_ite, beq_iff_eq]

end Sys2Proof.Machine

/-! PROOFS. Family 42_loads_transfers: a step at a defined opcode, and the whole effects of LDA and TAX. -/

namespace Sys2Proof.Machine

/-! ### A step at a defined opcode -/

section AtOpcode

variable {s : State} {k : Kind}

theorem State.AtOpcode.mode_running {op : Byte} (h : s.AtOpcode op) : s.mode = .running := h.1

/-- At a kind's opcode a step runs the instruction that the operand read completes (R67, R68). -/
theorem State.AtOpcode.step_of_assemble_ok {i : Instr} (h : s.AtOpcode k.opcode)
    (hi : k.assemble s.immediateAtPc = .ok i) : step s = exec i s :=
  step_exec h.mode_running ((State.fetch_of_opcode k h.opcodeAtPc).trans hi)

/-- At a kind's opcode a step faults as its operand read does (R68, R92). -/
theorem State.AtOpcode.step_of_assemble_error {f : Fault} (h : s.AtOpcode k.opcode)
    (hf : k.assemble s.immediateAtPc = .error f) : step s = .fault f :=
  step_fault h.mode_running ((State.fetch_of_opcode k h.opcodeAtPc).trans hf)

theorem State.AtOpcode.step_lda (h : s.AtOpcode 0xA9#8) (hin : (s.pc + 1#16).toNat < s.progLen) :
    step s = exec (.lda (s.prog.read (s.pc + 1#16).toNat)) s := by
  have hread : s.immediateAtPc = .ok (s.prog.read (s.pc + 1#16).toNat) := State.memRead_in hin
  exact h.step_of_assemble_ok (k := .lda) (by rw [hread]; rfl)

/-- A missing operand faults with the operand's own offset (D13). -/
theorem State.AtOpcode.step_lda_missing_operand (h : s.AtOpcode 0xA9#8)
    (hout : s.progLen ≤ (s.pc + 1#16).toNat) : step s = .fault (.outOfBoundsFetch (s.pc + 1#16)) := by
  have hread : s.immediateAtPc = .error (.outOfBoundsFetch (s.pc + 1#16)) := State.memRead_out hout
  exact h.step_of_assemble_error (k := .lda) (by rw [hread]; rfl)

theorem State.AtOpcode.step_tax (h : s.AtOpcode 0xAA#8) : step s = exec .tax s :=
  h.step_of_assemble_ok (k := .tax) rfl

end AtOpcode

/-! ### The whole effect -/

theorem exec_lda (imm8 : Byte) (s : State) :
    exec (.lda imm8) s = .next (s.advancePc.advancePc.writeResult .a imm8) := rfl

theorem exec_tax (s : State) : exec .tax s = .next (s.advancePc.writeResult .x s.regA) := rfl

/-- Only `BRK` touches the control state: a flag-affecting instruction keeps it (R67, R76). -/
theorem exec_sameControl {i : Instr} {s t : State} {r : Reg} (h : exec i s = .next t)
    (hr : resultRegOf i = some r) : SameControl s t := by
  obtain ⟨-, -, hfault, hfree⟩ := exec_keeps_control h
  obtain ⟨rfl, -⟩ | ⟨-, hmode, -⟩ := exec_mode_status h
  · cases hr
  · exact ⟨hmode, hfault, hfree⟩

/-! ### The obligations -/

/-- Settles O16: the operand read is in bounds and completes the instruction, or its fault is the step's. -/
theorem ldaLoadsTheAccumulator : Obligations.LdaLoadsTheAccumulator := by
  refine ⟨fun imm8 s => ?_, fun _ hs => ⟨hs.step_lda, hs.step_lda_missing_operand⟩⟩
  have h := exec_lda imm8 s
  exact ⟨_, h, State.writeResult_a_regA _ _, State.writeResult_a_regX _ _, exec_flagsDescribe h rfl,
    exec_sameReserved h, exec_pc h, exec_sameControl h rfl, exec_sameProgram h⟩

/-- Settles O17: the opcode alone completes the instruction. -/
theorem taxCopiesAToX : Obligations.TaxCopiesAToX := by
  refine ⟨fun s => ?_, fun _ hs => hs.step_tax⟩
  have h := exec_tax s
  exact ⟨_, h, State.writeResult_x_regX _ _, State.writeResult_x_regA _ _, exec_flagsDescribe h rfl,
    exec_sameReserved h, exec_pc h, exec_sameControl h rfl, exec_sameProgram h⟩

end Sys2Proof.Machine

/-! PROOFS. Family 43_arithmetic: the whole effect of INX. -/

namespace Sys2Proof.Machine

theorem exec_inx (s : State) : exec .inx s = .next (s.advancePc.writeResult .x (s.regX + 1#8)) := rfl

/-- Adding 1 to X wraps from 255 to 0 (R84). -/
theorem exec_inx_regX_toNat {s t : State} (h : exec .inx s = .next t) :
    t.regX.toNat = (s.regX.toNat + 1) % 256 := by
  rw [exec_inx, Host.Outcome.next.injEq] at h
  rw [← h, State.writeResult_x_regX, BitVec.toNat_add, BitVec.toNat_ofNat]

/-- Settles O18: X takes the wrapped sum, and the opcode alone completes the instruction. -/
theorem inxIncrementsX : Obligations.InxIncrementsX := by
  refine ⟨fun s => ?_, fun s hs => hs.step_inx.trans (exec_inx s).symm⟩
  have h := exec_inx s
  exact ⟨_, h, exec_inx_regX_toNat h, State.writeResult_x_regA _ _, exec_flagsDescribe h rfl,
    exec_sameReserved h, exec_pc h, exec_sameControl h rfl, exec_sameProgram h⟩

end Sys2Proof.Machine

/-! PROOFS. Family 44_control: the whole effect of BRK. -/

namespace Sys2Proof.Machine

theorem exec_brk (s : State) : exec .brk s = .next s.advancePc.halt := rfl

/-- Passing the one byte and halting write `pc` and `mode` alone (R85). -/
theorem State.halt_advancePc (s : State) :
    s.advancePc.halt = { s with pc := s.pc + 1#16, mode := .halted } := rfl

/-- Settles O19: the opcode alone completes the instruction. -/
theorem brkHalts : Obligations.BrkHalts := by
  refine ⟨fun s => ?_, fun s hs => hs.step_brk.trans (exec_brk s).symm⟩
  rw [exec_brk, State.halt_advancePc]

end Sys2Proof.Machine

/-! PROOFS. Family 60_exceptions: when a step faults, what a fault records and shows, and the moves refused around it. -/

namespace Sys2Proof.Machine

/-! ### The faults of a read, a fetch and a step -/

section Faults

variable {s : State} {f : Fault}

/-- A program read faults exactly at or past `L`, and records its offset (R35, R88). -/
theorem State.memRead_eq_error_iff {addr : Word} :
    s.memRead addr = .error f ↔ s.progLen ≤ addr.toNat ∧ f = .outOfBoundsFetch addr := by
  by_cases hin : addr.toNat < s.progLen
  · simp [State.memRead_in hin, hin]
  · have hout := Nat.not_lt.1 hin
    simp [State.memRead_out hout, hout, eq_comm]

/-- A fetch faults exactly as its opcode read does, at an undefined opcode, or as the operand read of `LDA` does
(R88, R89). -/
theorem State.fetch_eq_error_iff :
    s.fetch = .error f ↔
      s.opcodeAtPc = .error f ∨
      (∃ op, s.opcodeAtPc = .ok op ∧ decodeOpcode op = .undefined op ∧ f = .unimplementedOpcode op) ∨
      (s.opcodeAtPc = .ok 0xA9#8 ∧ s.immediateAtPc = .error f) := by
  constructor
  · intro hfault
    obtain ⟨g, hop, h⟩ | ⟨op, hop, hund, h⟩ | ⟨-, h⟩ | ⟨-, h⟩ | ⟨-, h⟩ | ⟨hop, g, hv, h⟩ |
      ⟨-, v, -, h⟩ := s.fetch_cases <;> rw [h] at hfault <;> cases hfault
    · exact .inl hop
    · exact .inr (.inl ⟨op, hop, hund, rfl⟩)
    · exact .inr (.inr ⟨hop, hv⟩)
  · rintro (hop | ⟨op, hop, hund, rfl⟩ | ⟨hop, hv⟩)
    · exact State.fetch_of_opcode_error hop
    · exact State.fetch_of_undefined hop hund
    · rw [State.fetch_of_opcode .lda hop, hv]
      rfl

/-- The running core faults exactly as its fetch does (R87). -/
theorem step_eq_fault_iff (hm : s.mode = .running) : step s = .fault f ↔ s.fetch = .error f := by
  refine ⟨fun hfault => ?_, step_fault hm⟩
  obtain ⟨-, h⟩ | ⟨-, g, hg, h⟩ | ⟨-, i, t, -, -, h⟩ := step_cases s <;> rw [h] at hfault <;>
    cases hfault
  exact hg

/-- The running core is never refused: it faults or goes on. -/
theorem step_faults_or_goes_on (hm : s.mode = .running) :
    (∃ f, step s = .fault f) ∨ ∃ t, step s = .next t := by
  obtain ⟨hne, -⟩ | ⟨-, f, -, h⟩ | ⟨-, i, t, -, -, h⟩ := step_cases s
  · exact absurd hm hne
  · exact .inl ⟨f, h⟩
  · exact .inr ⟨t, h⟩

/-- A step's fault is taken (R87). -/
theorem move_core_of_fault (h : step s = .fault f) : move .core s = s.takeFault f := by
  simp [move, h, settle]

end Faults

/-! ### The fault outputs after a fault (R86) -/

@[simp] theorem State.takeFault_faultValid (s : State) (f : Fault) :
    (s.takeFault f).faultValid = true := rfl
@[simp] theorem State.takeFault_faultKind (s : State) (f : Fault) :
    (s.takeFault f).faultKind = f.kind := rfl
@[simp] theorem State.takeFault_faultInfo (s : State) (f : Fault) :
    (s.takeFault f).faultInfo = some f.info := rfl

/-- The record of an undefined opcode keeps its value: it is extended by zeros. -/
theorem Fault.info_unimplementedOpcode_toNat (op : Byte) :
    (Fault.unimplementedOpcode op).info.toNat = op.toNat :=
  BitVec.toNat_setWidth_of_le (by decide)

/-! ### Refused host moves -/

section Refusals

variable {s : State}

theorem move_host_of_refused {h : HostMove} {r : Refusal} (hr : hostMove h s = .refused r) :
    move (.host h) s = s := by
  simp [move, hr, settle]

theorem interpret_of_faulted (hm : s.mode = .faulted) (program : List Byte) :
    interpret program s = .refused .faultedUntilReset := by
  obtain ⟨hm', -⟩ | ⟨hm', -⟩ | ⟨-, h⟩ := interpret_cases program s
  case inr.inr => exact h
  all_goals simp [hm] at hm'

theorem interpret_of_running (hm : s.mode = .running) (program : List Byte) :
    interpret program s = .refused .hostDuringRun := by
  obtain ⟨hm', -⟩ | ⟨-, h⟩ | ⟨hm', -⟩ := interpret_cases program s
  case inr.inl => exact h
  all_goals simp [hm] at hm'

theorem portWrite_of_running (hm : s.mode = .running) (write : State → State) :
    portWrite write s = .refused .hostDuringRun := by
  obtain ⟨hne, -⟩ | ⟨-, h⟩ := portWrite_cases write s
  · exact absurd hm hne
  · exact h

/-- While RUNNING the host can do nothing but reset (D4, U8). -/
theorem hostMove_of_running (hm : s.mode = .running) {h : HostMove} (hne : h ≠ .reset) :
    hostMove h s = .refused .hostDuringRun := by
  cases h with
  | reset => exact absurd rfl hne
  | interpret program => exact interpret_of_running hm program
  | writeReg _ _ | writeStatus _ | writePc _ =>
    simp only [hostMove_writeReg, hostMove_writeStatus, hostMove_writePc, portWrite_of_running hm]

end Refusals

/-! ### The obligations -/

/-- Settles O26: the fetch raises the fault, and each read it makes faults exactly out of bounds. -/
theorem stepFaultsExactly : Obligations.StepFaultsExactly := by
  refine fun s hm => ⟨fun f => ?_, step_faults_or_goes_on hm⟩
  rw [step_eq_fault_iff hm, State.fetch_eq_error_iff]
  simp only [State.opcodeAtPc, State.immediateAtPc, pcAfterByte, State.memRead_eq_error_iff,
    State.memRead_eq_ok_iff, decodeOpcode_eq_undefined_iff, and_assoc, exists_and_left,
    exists_eq_left']

/-- Settles O40, by induction on the sequence of transitions. -/
theorem faultStaysUntilReset : Obligations.FaultStaysUntilReset := by
  intro ms s hms hs
  refine moves_induction (P := fun t => t.mode = .faulted ∧ t.fault = s.fault)
    (fun m t hm ht => ?_) hms ⟨hs, rfl⟩
  obtain ⟨hmode, hfault⟩ := move_of_faulted hm ht.1
  exact ⟨hmode, hfault.trans ht.2⟩

/-- Settles O38: the step's fault is taken, which leaves the buffer alone. -/
theorem faultIsRecorded : Obligations.FaultIsRecorded := by
  intro s f h
  rw [move_core_of_fault h]
  exact ⟨State.takeFault_mode s f, State.takeFault_fault s f, sameProgram_of_prog_eq rfl rfl⟩

/-- Settles O39: the outputs show the number and the record of the fault taken. -/
theorem faultSignals : Obligations.FaultSignals := by
  refine ⟨fun s offset h => ?_, fun s op h => ?_, fun s hs => ?_⟩
  · rw [move_core_of_fault h]
    exact ⟨State.takeFault_faultValid s _, State.takeFault_faultKind s _,
      State.takeFault_faultInfo s _⟩
  · rw [move_core_of_fault h, State.takeFault_faultInfo, Option.map_some,
      Fault.info_unimplementedOpcode_toNat]
    exact ⟨State.takeFault_faultValid s _, State.takeFault_faultKind s _, rfl⟩
  · simp [State.faultKind, hs]

/-- Settles O44: the refusals are by name, and a refused move leaves the state as it was. -/
theorem hostRefusals : Obligations.HostRefusals := by
  refine ⟨fun program s hm => ?_, fun h s hm hne => ?_⟩
  · have hr := interpret_of_faulted hm program
    exact ⟨hr, move_host_of_refused hr⟩
  · have hr := hostMove_of_running hm hne
    exact ⟨hr, move_host_of_refused hr⟩

end Sys2Proof.Machine

/-! PROOFS. Family 70_reset_and_hazards: no hazard between neighbouring instructions, and the run of an empty program. -/

namespace Sys2Proof.Machine

/-! ### LDA then TAX -/

section LdaThenTax

variable {s t : State}

/-- A step's next state is the state after the transition (R63). -/
theorem move_core_of_next (h : step s = .next t) : move .core s = t := by
  simp [move, h, settle]

/-- An `LDA` leaves the core at the opcode two offsets on, if that one is in bounds (R19, R82). -/
theorem exec_lda_atOpcode {imm8 op : Byte} (hm : s.mode = .running)
    (hin : (s.pc + 2#16).toNat < s.progLen) (hop : s.prog.read (s.pc + 2#16).toNat = op)
    (h : exec (.lda imm8) s = .next t) : t.AtOpcode op := by
  obtain ⟨hmode, -, -⟩ := exec_sameControl h rfl
  obtain ⟨hlen, hread⟩ := exec_sameProgram h
  have hpc : t.pc = s.pc + 2#16 := exec_pc h
  refine ⟨hmode.trans hm, ?_, ?_⟩
  · rwa [hpc, hlen]
  · rwa [hpc, hread]

end LdaThenTax

/-! ### The obligations -/

/-- Settles O36: the state `LDA` leaves is at `TAX`'s opcode with the operand in A, and `TAX` copies that A. -/
theorem taxAfterLdaSeesTheNewA : Obligations.TaxAfterLdaSeesTheNewA := by
  intro s hs hoperand hin htax
  have hlda := exec_lda (s.prog.read (s.pc + 1#16).toNat) s
  have hfirst := move_core_of_next ((hs.step_lda hoperand).trans hlda)
  have hat := exec_lda_atOpcode hs.mode_running hin htax hlda
  have hsecond := move_core_of_next (hat.step_tax.trans (exec_tax _))
  rw [moves, moves, moves, hfirst, hsecond]
  exact ⟨State.writeResult_x_regX _ _, State.writeResult_x_regA _ _⟩

/-- Settles O37: the run starts at offset 0, where an empty program already ends. -/
theorem emptyProgramFaults : Obligations.EmptyProgramFaults := by
  intro s hs
  obtain ⟨-, h⟩ | ⟨hm, -⟩ | ⟨hm, -⟩ := interpret_cases [] s
  · exact ⟨_, h, step_of_out_of_bounds (State.startRun_mode s []) (Nat.zero_le _)⟩
  all_goals simp [hm] at hs

end Sys2Proof.Machine
